-- ==== Sys2Proof/Word.lean ====
section
/-! DEFINITION. The word types of the ferret-8 CHIP-8 VM core (00_scope.md R6, R13, R15): every quantity is an unsigned bit vector of a fixed width. -/

namespace Sys2Proof

/-- An 8-bit byte: a general register, a timer, a memory byte, the immediate `kk`. -/
abbrev Byte := BitVec 8

/-- A 16-bit word: an opcode word, `I`, `PC`, a return address. -/
abbrev Word := BitVec 16

/-- A 4-bit register number or key number, 0 to 15 (R15, R20, R29). -/
abbrev Reg := BitVec 4

/-- The 4-bit sprite height `n` (R15, R73). -/
abbrev Nibble := BitVec 4

/-- The 12-bit address immediate `nnn` (R15, R73). -/
abbrev Addr := BitVec 12

end Sys2Proof
end

