-- ==== Sys2Proof/Syntax.lean ====
section
/-! DEFINITION. The instructions: one constructor per row of spec/opcode_table.json (30_encoding.md R77), in the table's order, with the operand fields the table gives the row. -/

namespace Sys2Proof

/-- The 34 instructions of the opcode map (R77). The docstring of a constructor gives its pattern and its rule. -/
inductive Instr where
  /-- `00E0` `CLS` (R135). -/
  | cls
  /-- `00EE` `RET` (R100). -/
  | ret
  /-- `1nnn` `JP nnn` (R101). -/
  | jp (nnn : Addr)
  /-- `2nnn` `CALL nnn` (R102). -/
  | call (nnn : Addr)
  /-- `3xkk` `SE Vx, kk` (R103). -/
  | seImm (x : Reg) (kk : Byte)
  /-- `4xkk` `SNE Vx, kk` (R104). -/
  | sneImm (x : Reg) (kk : Byte)
  /-- `5xy0` `SE Vx, Vy` (R105). -/
  | seReg (x y : Reg)
  /-- `6xkk` `LD Vx, kk` (R110). -/
  | ldImm (x : Reg) (kk : Byte)
  /-- `7xkk` `ADD Vx, kk` (R111). -/
  | addImm (x : Reg) (kk : Byte)
  /-- `8xy0` `LD Vx, Vy` (R112). -/
  | ldReg (x y : Reg)
  /-- `8xy1` `OR Vx, Vy` (R113). -/
  | orReg (x y : Reg)
  /-- `8xy2` `AND Vx, Vy` (R114). -/
  | andReg (x y : Reg)
  /-- `8xy3` `XOR Vx, Vy` (R115). -/
  | xorReg (x y : Reg)
  /-- `8xy4` `ADD Vx, Vy` (R116). -/
  | addReg (x y : Reg)
  /-- `8xy5` `SUB Vx, Vy` (R117). -/
  | subReg (x y : Reg)
  /-- `8xy6` `SHR Vx, Vy` (R118). -/
  | shr (x y : Reg)
  /-- `8xy7` `SUBN Vx, Vy` (R119). -/
  | subn (x y : Reg)
  /-- `8xyE` `SHL Vx, Vy` (R120). -/
  | shl (x y : Reg)
  /-- `9xy0` `SNE Vx, Vy` (R106). -/
  | sneReg (x y : Reg)
  /-- `Annn` `LD I, nnn` (R125). -/
  | ldI (nnn : Addr)
  /-- `Bnnn` `JP V0, nnn` (R107). As the table's row, it holds both overlapping fields: `nnn` (bits 11:0) and `x` (bits 11:8). -/
  | jpV0 (nnn : Addr) (x : Reg)
  /-- `Cxkk` `RND Vx, kk` (R121). -/
  | rnd (x : Reg) (kk : Byte)
  /-- `Dxyn` `DRW Vx, Vy, n` (R136). -/
  | drw (x y : Reg) (n : Nibble)
  /-- `Ex9E` `SKP Vx` (R140). -/
  | skp (x : Reg)
  /-- `ExA1` `SKNP Vx` (R141). -/
  | sknp (x : Reg)
  /-- `Fx07` `LD Vx, DT` (R142). -/
  | ldVxDt (x : Reg)
  /-- `Fx0A` `LD Vx, K` (R143). -/
  | ldVxK (x : Reg)
  /-- `Fx15` `LD DT, Vx` (R144). -/
  | ldDtVx (x : Reg)
  /-- `Fx18` `LD ST, Vx` (R145). -/
  | ldStVx (x : Reg)
  /-- `Fx1E` `ADD I, Vx` (R126). -/
  | addI (x : Reg)
  /-- `Fx29` `LD F, Vx` (R127). -/
  | ldF (x : Reg)
  /-- `Fx33` `LD B, Vx` (R128). -/
  | ldB (x : Reg)
  /-- `Fx55` `LD [I], Vx` (R129). -/
  | storeRegs (x : Reg)
  /-- `Fx65` `LD Vx, [I]` (R130). -/
  | loadRegs (x : Reg)
  deriving DecidableEq, Repr

end Sys2Proof
end

