-- ==== Sys2Proof/WellFormed.lean ====
section
/-! DEFINITION. Which instructions as syntax are the reading of a word. The operand types hold every width (R71), so one check is left: the overlapping fields of `Bnnn` agree (R72). -/

namespace Sys2Proof

/-- `Bnnn`: "the bits `W[11:8]` are at once the top digit of `nnn` and ... the register number `x`" (R72). -/
def jpV0FieldsAgree (nnn : Addr) (x : Reg) : Bool :=
  x == nnn.extractLsb' 8 4

/-- An instruction is well formed when its fields can be read from one word (R71, R72). -/
def Instr.wellFormed : Instr → Bool
  | .jpV0 nnn x => jpV0FieldsAgree nnn x
  | .cls | .ret | .jp _ | .call _ | .seImm _ _ | .sneImm _ _ | .seReg _ _
  | .ldImm _ _ | .addImm _ _ | .ldReg _ _ | .orReg _ _ | .andReg _ _ | .xorReg _ _
  | .addReg _ _ | .subReg _ _ | .shr _ _ | .subn _ _ | .shl _ _ | .sneReg _ _
  | .ldI _ | .rnd _ _ | .drw _ _ _ | .skp _ | .sknp _ | .ldVxDt _ | .ldVxK _
  | .ldDtVx _ | .ldStVx _ | .addI _ | .ldF _ | .ldB _ | .storeRegs _ | .loadRegs _ => true

end Sys2Proof
end

