-- ==== Sys2Proof/Config.lean ====
section
/-! DEFINITION. What the spec leaves to the build, to the argument of `Reset` or to the host's random source: constants without a value, so that a theorem holds whatever they are. -/

namespace Sys2Proof

/-- The two values of the Compatibility Mode flag `COMPAT` (00_scope.md R9, 10_state.md R30). -/
inductive Compat where
  /-- Code 0. -/
  | modern
  /-- Code 1, "original COSMAC-VIP" semantics. -/
  | legacy
  deriving DecidableEq, Repr, Inhabited

/-- The `COMPAT` argument of the reset that `State.reset` stands for: the spec gives no default (R9, decision D21). DESIGN CHOICE, safe, log entry 1. -/
opaque Config.compat : Compat

/-- `FONT_BASE`, the address of the first font byte: a parameter with `0 <= FONT_BASE <= 0x1B0` (R10, decision D15), the bound held by the type. DESIGN CHOICE, safe, log entry 2. -/
opaque Config.fontBase : Fin 0x1B1

/-- The random bytes: element `k` is the argument `rnd` of the step that makes draw number `k` (R12, R43, R121, decision D17). FREE VALUE, safe, log entry 4. -/
opaque Config.rndByte : Nat → Byte

end Sys2Proof
end

