-- ==== Sys2Proof/Machine/State.lean ====
section
/-! DEFINITION. The state of the core, all of it and as plain data (10_state.md R20 to R36), its reset value, and the reasons a step can stop. -/

namespace Sys2Proof.Machine

/-- `RUN`, the run state of the execution loop (R31). -/
inductive RunState where
  /-- Code 0: a step fetches and executes one instruction. -/
  | running
  /-- Code 1: a step polls the keys for the suspended `Fx0A`. -/
  | waitingForKey
  /-- Code 2: terminal, a step changes nothing. -/
  | halted
  deriving DecidableEq, Repr

/-- The error kinds with their codes 0 to 5 (60_exceptions.md R150). -/
inductive FaultKind where
  /-- Code 0: no fault has occurred. -/
  | none
  /-- Code 1 (R151). -/
  | unknownOpcode
  /-- Code 2 (R152). -/
  | stackOverflow
  /-- Code 3 (R153). -/
  | stackUnderflow
  /-- Code 4 (R154). -/
  | outOfBoundsAddress
  /-- Code 5: reported on the load interface only, never in `FAULT_KIND` of a started machine (R150, R156). -/
  | programTooLarge
  deriving DecidableEq, Repr

/-- `MEM` as the list of the bytes that differ from what they hold after a reset with the empty program, addresses strictly rising (the form is `Memory.wf`). -/
abbrev Memory := List Host.Cell

/-- `FB[y][x]`: 32 rows of 64 one-bit pixels (R28). -/
abbrev Display := Vector (Vector Bool 64) 32

/-- The state (R36): "Nothing else persists between events". `rndIndex` is the model's own field (log entry 4). -/
structure State where
  /-- `V[0]` to `V[15]` (R20); `V[15]` is `VF` (R21). -/
  v : Vector Byte 16
  /-- `I`, the index register (R23). -/
  i : Word
  /-- `PC` (R22). -/
  pc : Word
  /-- `STACK[0]` to `STACK[15]` (R24). -/
  stack : Vector Word 16
  /-- `SP`, the number of return addresses held, 0 to 16 (R24). -/
  sp : Fin 17
  /-- `DT`, the delay timer (R25). -/
  dt : Byte
  /-- `ST`, the sound timer (R26). -/
  st : Byte
  /-- `MEM` (R27, R50). -/
  mem : Memory
  /-- `FB` (R28). -/
  fb : Display
  /-- `KEYS[0]` to `KEYS[15]` (R29). -/
  keys : Vector Bool 16
  /-- `COMPAT` (R30). -/
  compat : Compat
  /-- `RUN` (R31). -/
  run : RunState
  /-- `WAIT_REG`: the destination of the suspended `Fx0A` (R32). -/
  waitReg : Reg
  /-- `FAULT_KIND` (R33). -/
  faultKind : FaultKind
  /-- `FAULT_WORD` (R33). -/
  faultWord : Word
  /-- `FAULT_ADDR` (R33). -/
  faultAddr : Word
  /-- The model's own: the number of the next random draw from `Config.rndByte` (log entry 4). -/
  rndIndex : Nat
  deriving DecidableEq, Repr

/-- Where no state follows. The four fatal errors of the spec are not here: raising one is a next state, Halted, with the fault record written (R155). -/
inductive Fault where
  /-- Raised by the event `Reset` alone, for a program of more than 3584 bytes: "the machine is not started: it has no defined state" (R156, R182). The machine then waits for another `Reset` (`Vm`). No step raises it. Safe. Log entry 11. -/
  | programTooLarge
  deriving DecidableEq, Repr

/-- Why an instruction would have no meaning. -/
inductive Refusal where
  /-- An instruction without a meaning yet, named as the opcode table names it. Safe. No arm of `exec` answers it: every instruction has its meaning. -/
  | notModelled (mnemonic : String)
  deriving DecidableEq, Repr

/-- What a meaning and a step answer. -/
abbrev Result := Host.Outcome State Fault Refusal

/-- The state right after a reset with the empty program (R36, R180): memory with nothing listed. `COMPAT` is the reset's argument (log entry 1). -/
def State.reset : State where
  v := Vector.replicate 16 0x00#8
  i := 0x0000#16
  pc := 0x0200#16
  stack := Vector.replicate 16 0x0000#16
  sp := 0
  dt := 0x00#8
  st := 0x00#8
  mem := []
  fb := Vector.replicate 32 (Vector.replicate 64 false)
  keys := Vector.replicate 16 false
  compat := Config.compat
  run := .running
  waitReg := 0x0#4
  faultKind := .none
  faultWord := 0x0000#16
  faultAddr := 0x0000#16
  rndIndex := 0

end Sys2Proof.Machine
end

