-- ==== Sys2Proof/Machine/Ops.lean ====
section
/-! DEFINITION. The named operations over memory, registers, stack, display and run state, and raising a fault. Each piece of state is read and written through these and through nothing else. -/

namespace Sys2Proof.Machine

/-! ### Memory (20_memory.md) -/

/-- `MEM_SIZE` (00_scope.md R6). -/
def memSize : Nat := 4096

/-- `PROG_BASE` (R6). -/
def progBase : Nat := 0x200

/-- `FONT_DATA`: the 80 bytes of R55, five a digit, digits 0 to F. PRESUMED by the spec itself (its GK2), unsafe, log entry 3. -/
def fontData : List Byte :=
  [0xF0, 0x90, 0x90, 0x90, 0xF0] ++ [0x20, 0x60, 0x20, 0x20, 0x70]
  ++ [0xF0, 0x10, 0xF0, 0x80, 0xF0] ++ [0xF0, 0x10, 0xF0, 0x10, 0xF0]
  ++ [0x90, 0x90, 0xF0, 0x10, 0x10] ++ [0xF0, 0x80, 0xF0, 0x10, 0xF0]
  ++ [0xF0, 0x80, 0xF0, 0x90, 0xF0] ++ [0xF0, 0x10, 0x20, 0x40, 0x40]
  ++ [0xF0, 0x90, 0xF0, 0x90, 0xF0] ++ [0xF0, 0x90, 0xF0, 0x10, 0xF0]
  ++ [0xF0, 0x90, 0xF0, 0x90, 0x90] ++ [0xE0, 0x90, 0xE0, 0x90, 0xE0]
  ++ [0xF0, 0x80, 0x80, 0x80, 0xF0] ++ [0xE0, 0x90, 0x90, 0x90, 0xE0]
  ++ [0xF0, 0x80, 0xF0, 0x80, 0xF0] ++ [0xF0, 0x80, 0xF0, 0x80, 0x80]

/-- The byte at `a` of a memory that holds the font at `base` and zero elsewhere (R56). -/
def fontByteAt (base a : Nat) : Byte :=
  if base ≤ a then (fontData[a - base]?).getD 0x00#8 else 0x00#8

/-- What an unlisted address reads as: the reset contents with the empty program (R56): zero from `0x200` on, the font at `FONT_BASE` and zero elsewhere below. -/
def Memory.resetByte (a : Nat) : Byte :=
  if progBase ≤ a then 0x00#8 else fontByteAt Config.fontBase.val a

/-- The byte at an address. Meanings read only addresses that passed the bound of R52. -/
def Memory.read : Memory → Nat → Byte
  | [], a => Memory.resetByte a
  | c :: m, a => if c.1 = a then c.2 else Memory.read m a

/-- The memory without an entry for the address. -/
def Memory.dropAt (m : Memory) (a : Nat) : Memory := m.filter fun c => c.1 ≠ a

/-- An entry put before the first entry of a higher address. -/
def Memory.place : Memory → Nat → Byte → Memory
  | [], a, b => [(a, b)]
  | c :: m, a, b => if c.1 < a then c :: Memory.place m a b else (a, b) :: c :: m

/-- `MemWrite(addr, 1, v)` (R14) in canonical form: the value an unlisted address reads as removes the entry. -/
def Memory.write (m : Memory) (a : Nat) (b : Byte) : Memory :=
  if b = Memory.resetByte a then m.dropAt a else (m.dropAt a).place a b

/-- Bytes written one after another from an address upward. -/
def Memory.writeBytes (m : Memory) : Nat → List Byte → Memory
  | _, [] => m
  | a, b :: bs => Memory.writeBytes (m.write a b) (a + 1) bs

/-- The canonical form: addresses strictly rising, inside the address space (R50), and no entry that says what an unlisted address says. -/
abbrev Memory.wf (m : Memory) : Prop :=
  m.Pairwise (fun c d => c.1 < d.1) ∧ ∀ c ∈ m, c.1 < memSize ∧ c.2 ≠ Memory.resetByte c.1

/-- The bound of R52 for an access to the `cnt` bytes from `a` up: on naturals, no wrap, and an access of no bytes is never outside. -/
def outsideMemory (a cnt : Nat) : Bool := decide (1 ≤ cnt ∧ 0xFFF < a + cnt - 1)

/-- `MEM[a]`. -/
def State.readByte (s : State) (a : Nat) : Byte := s.mem.read a

/-- Store bytes from an address upward (R53). -/
def State.storeBytes (s : State) (a : Nat) (bs : List Byte) : State :=
  { s with mem := s.mem.writeBytes a bs }

/-! ### General registers, index register, program counter (R20 to R23) -/

/-- `V[x]`. -/
def State.getV (s : State) (x : Reg) : Byte := s.v[x.toNat]'x.isLt

/-- `V[x] <- b`. -/
def State.setV (s : State) (x : Reg) (b : Byte) : State :=
  { s with v := s.v.set x.toNat b x.isLt }

/-- `V[r] <- f r` for every register `r` up to and including `x` (R130). -/
def State.setVUpTo (s : State) (x : Reg) (f : Nat → Byte) : State :=
  { s with v := Vector.ofFn fun r => if r.val ≤ x.toNat then f r.val else s.v[r.val] }

/-- The number of `VF`, the flag register (R21). -/
def regF : Reg := 0xF#4

/-- `I <- w`. -/
def State.setI (s : State) (w : Word) : State := { s with i := w }

/-- `PC <- w`: never masked (R22). -/
def State.setPc (s : State) (w : Word) : State := { s with pc := w }

/-- `PC <- PC + 2`: the next instruction (R94). -/
def State.advance (s : State) : State := s.setPc (s.pc + 2)

/-- A skip: `PC + 4` when the condition holds, else `PC + 2` (R94). -/
def State.skipIf (s : State) (c : Bool) : State := s.setPc (if c then s.pc + 4 else s.pc + 2)

/-! ### Call stack (R24) -/

/-- Push: writes `STACK[SP]`, then increments `SP`; none when 16 are held. -/
def State.push? (s : State) (w : Word) : Option State :=
  if h : s.sp.val < 16 then
    some { s with stack := s.stack.set s.sp.val w h, sp := ⟨s.sp.val + 1, by omega⟩ }
  else none

/-- Pop: decrements `SP`, then reads `STACK[SP]`, leaving the entry in place; none when none is held. -/
def State.pop? (s : State) : Option (Word × State) :=
  if h : 0 < s.sp.val then
    some (s.stack[s.sp.val - 1]'(by omega), { s with sp := ⟨s.sp.val - 1, by omega⟩ })
  else none

/-! ### Timers, keys, random byte (R25, R26, R29, R43) -/

/-- `DT <- b`. -/
def State.setDt (s : State) (b : Byte) : State := { s with dt := b }

/-- `ST <- b`. -/
def State.setSt (s : State) (b : Byte) : State := { s with st := b }

/-- `KEYS[k]`. -/
def State.keyDown (s : State) (k : Reg) : Bool := s.keys[k.toNat]'k.isLt

/-- `KEYS[k] <- w[k]` for every `k` (R42). -/
def State.setKeys (s : State) (w : BitVec 16) : State :=
  { s with keys := Vector.ofFn fun k => w.getLsbD k.val }

/-- The least `k` with `KEYS[k] = 1`, if there is one (R91). -/
def State.leastKey? (s : State) : Option Nat :=
  (List.range 16).find? fun k => s.keys[k]? == some true

/-- The random byte of this draw (R43, R121; log entry 4). -/
def State.rndByte (s : State) : Byte := Config.rndByte s.rndIndex

/-- The draw is used up: the next one takes another element of the stream. -/
def State.nextDraw (s : State) : State := { s with rndIndex := s.rndIndex + 1 }

/-! ### Display (R28) -/

/-- Every pixel off. -/
def Display.blank : Display := Vector.replicate 32 (Vector.replicate 64 false)

/-- `FB[y][x]`. -/
def Display.pixel (d : Display) (y : Fin 32) (x : Fin 64) : Bool := d[y.val][x.val]

/-- `FB[y][x] <- b`. -/
def Display.setPixel (d : Display) (y : Fin 32) (x : Fin 64) (b : Bool) : Display :=
  d.set y.val (d[y.val].set x.val b)

/-- The display replaced. -/
def State.setFb (s : State) (d : Display) : State := { s with fb := d }

/-! ### Raising a fault (R155) -/

/-- `Fault(kind, word, PC)`: RUN becomes Halted, the fault record is written, and nothing else changes. There is no handler and no return from it (R158): only the event `Reset` leaves Halted. -/
def State.raise (s : State) (kind : FaultKind) (word : Word) : State :=
  { s with run := .halted, faultKind := kind, faultWord := word, faultAddr := s.pc }

/-- An instruction raises a fault: a next state, Halted, whose fault word is the instruction's own (R154, R155; log entries 7 and 8). -/
def raiseIn (i : Instr) (kind : FaultKind) (s : State) : Result :=
  .next (s.raise kind (encode i))

/-! ### Waiting for a key (R91) -/

/-- A key was found: Running again. -/
def State.resume (s : State) : State := { s with run := .running }

/-- No key: WaitingForKey, with the destination kept in `WAIT_REG`. -/
def State.suspend (s : State) (x : Reg) : State := { s with run := .waitingForKey, waitReg := x }

/-- `KeyPoll(r)`: the least key down goes to `V[r]`, `PC` advances, the machine runs; with no key down it waits, `PC` unchanged. -/
def State.keyPoll (s : State) (r : Reg) : State :=
  match s.leastKey? with
  | some k => ((s.setV r (BitVec.ofNat 8 k)).advance).resume
  | none => s.suspend r

end Sys2Proof.Machine
end

