-- ==== Sys2Proof/Machine/Operands.lean ====
section
/-! DEFINITION. The operand forms: the immediates widened, the register and address each mode selects, key and digit numbers, the bytes at `I`, the decimal digits. -/

namespace Sys2Proof.Machine

/-- `zext_16(nnn)` (30_encoding.md R73). -/
def addrOperand (nnn : Addr) : Word := nnn.setWidth 16

/-- `zext_16` of a byte (R107). -/
def byteOperand (b : Byte) : Word := b.setWidth 16

/-- `V[x][3:0]`: the key number (45_keypad_timers.md R146) or the digit (43_index_memory.md R127) of a register. -/
def State.lowNibble (s : State) (x : Reg) : Reg := (s.getV x).extractLsb' 0 4

/-- The source of a shift: `V[y]` in Legacy, `V[x]` in Modern mode (R118, R120). -/
def State.shiftSource (s : State) (x y : Reg) : Byte :=
  match s.compat with
  | .legacy => s.getV y
  | .modern => s.getV x

/-- The offset of `Bnnn`: `V[0]` in Legacy, `V[x]` in Modern mode (R107). -/
def State.jumpOffset (s : State) (x : Reg) : Byte :=
  match s.compat with
  | .legacy => s.getV 0x0#4
  | .modern => s.getV x

/-- `I` as the natural number an address is computed from (R131). -/
def State.index (s : State) : Nat := s.i.toNat

/-- The bytes of `V[0]` to `V[x]`, in order (R129). -/
def State.regBytes (s : State) (x : Reg) : List Byte :=
  (List.range (x.toNat + 1)).map fun r => s.getV (BitVec.ofNat 4 r)

/-- `I` after `Fx55` and `Fx65`: `I + x + 1` in Legacy, unchanged in Modern mode (R129, R130). -/
def State.indexAfter (s : State) (x : Reg) : Word :=
  match s.compat with
  | .legacy => BitVec.ofNat 16 (s.index + x.toNat + 1)
  | .modern => s.i

/-- The hundreds, tens and ones digits of a byte, in that order (R128). -/
def decimalDigits (b : Byte) : List Byte :=
  [BitVec.ofNat 8 (b.toNat / 100), BitVec.ofNat 8 (b.toNat / 10 % 10), BitVec.ofNat 8 (b.toNat % 10)]

/-- The address of a digit's sprite with the font at `base`: `base + 5 * d` (R127). -/
def fontAddress (base : Nat) (d : Reg) : Word := BitVec.ofNat 16 (base + 5 * d.toNat)

end Sys2Proof.Machine
end

