-- ==== Sys2Proof/Machine/ControlFlow.lean ====
section
/-! DEFINITION. Control flow: `00EE`, `1nnn`, `2nnn`, `3xkk`, `4xkk`, `5xy0`, `9xy0`, `Bnnn` (41_control_flow.md R100 to R107). -/

namespace Sys2Proof.Machine

/-- `00EE` (R100). -/
def execRet (s : State) : Result :=
  match s.pop? with
  | none => raiseIn .ret .stackUnderflow s
  | some (ra, t) => .next (t.setPc ra)

/-- `1nnn` (R101). -/
def execJp (nnn : Addr) (s : State) : Result := .next (s.setPc (addrOperand nnn))

/-- `2nnn` (R102): what is pushed is the address of the instruction after the call. -/
def execCall (nnn : Addr) (s : State) : Result :=
  match s.push? (s.pc + 2) with
  | none => raiseIn (.call nnn) .stackOverflow s
  | some t => .next (t.setPc (addrOperand nnn))

/-- `3xkk` (R103). -/
def execSeImm (x : Reg) (kk : Byte) (s : State) : Result := .next (s.skipIf (s.getV x == kk))

/-- `4xkk` (R104). -/
def execSneImm (x : Reg) (kk : Byte) (s : State) : Result := .next (s.skipIf (s.getV x != kk))

/-- `5xy0` (R105). -/
def execSeReg (x y : Reg) (s : State) : Result := .next (s.skipIf (s.getV x == s.getV y))

/-- `9xy0` (R106). -/
def execSneReg (x y : Reg) (s : State) : Result := .next (s.skipIf (s.getV x != s.getV y))

/-- `Bnnn` (R107): no wrap, no mask. -/
def execJpV0 (nnn : Addr) (x : Reg) (s : State) : Result :=
  .next (s.setPc (addrOperand nnn + byteOperand (s.jumpOffset x)))

end Sys2Proof.Machine
end

