-- ==== Sys2Proof/Machine/Flags.lean ====
section
/-! DEFINITION. The flag computations (42_register_alu.md R122, R123): a result and the value for `VF`, both from the operands as they were before the instruction. -/

namespace Sys2Proof.Machine

/-- A flag as the byte written to `VF`: `0x01` or `0x00` (R21). -/
def flagByte (c : Bool) : Byte := if c then 0x01#8 else 0x00#8

/-- A result and its flag. -/
structure Flagged where
  result : Byte
  flag : Bool
  deriving DecidableEq, Repr

/-- `(a + b) mod 256`, carry iff the exact sum is above 255 (R116, R122). -/
def addFlagged (a b : Byte) : Flagged :=
  let sum := a.toNat + b.toNat
  { result := BitVec.ofNat 8 (sum % 256), flag := decide (255 < sum) }

/-- `(a - b) mod 256`, flag iff there is NO borrow, equality included (R117, R122). -/
def subFlagged (a b : Byte) : Flagged :=
  { result := BitVec.ofNat 8 ((a.toNat + 256 - b.toNat) % 256), flag := decide (b.toNat ≤ a.toNat) }

/-- `t >> 1` and the bit shifted out, `t[0]` (R118). -/
def shrFlagged (t : Byte) : Flagged :=
  { result := BitVec.ofNat 8 (t.toNat / 2), flag := t.getLsbD 0 }

/-- `(t << 1) mod 256` and the bit shifted out, `t[7]` (R120). -/
def shlFlagged (t : Byte) : Flagged :=
  { result := BitVec.ofNat 8 (t.toNat * 2 % 256), flag := t.getLsbD 7 }

/-- The result to `V[x]` first, the flag to `VF` second: with `x = 15`, `VF` ends as the flag (R123). -/
def State.setFlagged (s : State) (x : Reg) (r : Flagged) : State :=
  (s.setV x r.result).setV regF (flagByte r.flag)

end Sys2Proof.Machine
end

