-- ==== Sys2Proof/Machine/Display.lean ====
section
/-! DEFINITION. Display: `00E0`, `Dxyn` (44_display.md R135, R136), the drawing loop as R136 writes it. -/

namespace Sys2Proof.Machine

/-- `00E0` (R135). -/
def execCls (s : State) : Result := .next (s.setFb Display.blank).advance

/-- What the drawing loop carries: the display and the collision flag. -/
structure Canvas where
  fb : Display
  collision : Bool
  deriving DecidableEq, Repr

/-- The body of R136's inner loop: one sprite bit at column `px`, row `py`, taken modulo 64 and 32 without an 8-bit wrap. -/
def Canvas.plot (c : Canvas) (px py : Nat) (bit : Bool) : Canvas :=
  let x : Fin 64 := Fin.ofNat 64 px
  let y : Fin 32 := Fin.ofNat 32 py
  let old := c.fb.pixel y x
  { fb := c.fb.setPixel y x (old ^^ bit), collision := c.collision || (bit && old) }

/-- One sprite row: bits 7 down to 0 of `b` at columns `vx` to `vx + 7`. -/
def Canvas.plotRow (vx py : Nat) (b : Byte) (c : Canvas) : Canvas :=
  (List.range 8).foldl (fun c k => c.plot (vx + k) py (b.getLsbD (7 - k))) c

/-- The sprite: its rows from the top, each one row further down. -/
def Canvas.plotRows (vx : Nat) : Nat → List Byte → Canvas → Canvas
  | _, [], c => c
  | py, b :: bs, c => Canvas.plotRows vx (py + 1) bs (c.plotRow vx py b)

/-- The `n` sprite bytes at `I` (R136). -/
def State.spriteBytes (s : State) (n : Nibble) : List Byte :=
  (List.range n.toNat).map fun r => s.readByte (s.index + r)

/-- The canvas after the sprite is drawn at (`V[x]`, `V[y]`). -/
def State.drawn (s : State) (x y : Reg) (n : Nibble) : Canvas :=
  Canvas.plotRows (s.getV x).toNat (s.getV y).toNat (s.spriteBytes n) { fb := s.fb, collision := false }

/-- `Dxyn` (R136): `VF` is written after the coordinates are read. -/
def execDrw (x y : Reg) (n : Nibble) (s : State) : Result :=
  if outsideMemory s.index n.toNat then raiseIn (.drw x y n) .outOfBoundsAddress s
  else
    let c := s.drawn x y n
    .next ((s.setFb c.fb).setV regF (flagByte c.collision)).advance

end Sys2Proof.Machine
end

