-- ==== Sys2Proof/Machine/IndexMemory.lean ====
section
/-! DEFINITION. Index register and memory: `Annn`, `Fx1E`, `Fx29`, `Fx33`, `Fx55`, `Fx65` (43_index_memory.md R125 to R131). -/

namespace Sys2Proof.Machine

/-- `Annn` (R125). -/
def execLdI (nnn : Addr) (s : State) : Result := .next (s.setI (addrOperand nnn)).advance

/-- `Fx1E` (R126): the exact sum, a fault when it does not fit 16 bits. -/
def execAddI (x : Reg) (s : State) : Result :=
  let sum := s.index + (s.getV x).toNat
  if 0xFFFF < sum then raiseIn (.addI x) .outOfBoundsAddress s
  else .next (s.setI (BitVec.ofNat 16 sum)).advance

/-- `Fx29` (R127). -/
def execLdF (x : Reg) (s : State) : Result :=
  .next (s.setI (fontAddress Config.fontBase.val (s.lowNibble x))).advance

/-- `Fx33` (R128): nothing is stored when any of the three bytes is out of bounds. -/
def execLdB (x : Reg) (s : State) : Result :=
  if outsideMemory s.index 3 then raiseIn (.ldB x) .outOfBoundsAddress s
  else .next (s.storeBytes s.index (decimalDigits (s.getV x))).advance

/-- `Fx55` (R129): `V[0]` to `V[x]` to the bytes at the old `I`. -/
def execStoreRegs (x : Reg) (s : State) : Result :=
  if outsideMemory s.index (x.toNat + 1) then raiseIn (.storeRegs x) .outOfBoundsAddress s
  else .next ((s.storeBytes s.index (s.regBytes x)).setI (s.indexAfter x)).advance

/-- `Fx65` (R130): the mirror image. -/
def execLoadRegs (x : Reg) (s : State) : Result :=
  if outsideMemory s.index (x.toNat + 1) then raiseIn (.loadRegs x) .outOfBoundsAddress s
  else .next ((s.setVUpTo x fun r => s.readByte (s.index + r)).setI (s.indexAfter x)).advance

end Sys2Proof.Machine
end

