-- ==== Sys2Proof/Machine/KeypadTimers.lean ====
section
/-! DEFINITION. Keypad and timer instructions: `Ex9E`, `ExA1`, `Fx07`, `Fx0A`, `Fx15`, `Fx18` (45_keypad_timers.md R140 to R146). -/

namespace Sys2Proof.Machine

/-- `Ex9E` (R140). -/
def execSkp (x : Reg) (s : State) : Result := .next (s.skipIf (s.keyDown (s.lowNibble x)))

/-- `ExA1` (R141). -/
def execSknp (x : Reg) (s : State) : Result := .next (s.skipIf (!s.keyDown (s.lowNibble x)))

/-- `Fx07` (R142). -/
def execLdVxDt (x : Reg) (s : State) : Result := .next (s.setV x s.dt).advance

/-- `Fx0A` (R143). -/
def execLdVxK (x : Reg) (s : State) : Result := .next (s.keyPoll x)

/-- `Fx15` (R144). -/
def execLdDtVx (x : Reg) (s : State) : Result := .next (s.setDt (s.getV x)).advance

/-- `Fx18` (R145). -/
def execLdStVx (x : Reg) (s : State) : Result := .next (s.setSt (s.getV x)).advance

end Sys2Proof.Machine
end

