-- ==== Sys2Proof/Machine/RegisterAlu.lean ====
section
/-! DEFINITION. Register and arithmetic instructions: `6xkk`, `7xkk`, `8xy0` to `8xy7`, `8xyE`, `Cxkk` (42_register_alu.md R110 to R123). -/

namespace Sys2Proof.Machine

/-- `6xkk` (R110). -/
def execLdImm (x : Reg) (kk : Byte) (s : State) : Result := .next (s.setV x kk).advance

/-- `7xkk` (R111): the carry is discarded. -/
def execAddImm (x : Reg) (kk : Byte) (s : State) : Result :=
  .next (s.setV x (addFlagged (s.getV x) kk).result).advance

/-- `8xy0` (R112). -/
def execLdReg (x y : Reg) (s : State) : Result := .next (s.setV x (s.getV y)).advance

/-- `8xy1` (R113): `VF` is not reset. -/
def execOrReg (x y : Reg) (s : State) : Result := .next (s.setV x (s.getV x ||| s.getV y)).advance

/-- `8xy2` (R114). -/
def execAndReg (x y : Reg) (s : State) : Result := .next (s.setV x (s.getV x &&& s.getV y)).advance

/-- `8xy3` (R115). -/
def execXorReg (x y : Reg) (s : State) : Result := .next (s.setV x (s.getV x ^^^ s.getV y)).advance

/-- `8xy4` (R116). -/
def execAddReg (x y : Reg) (s : State) : Result :=
  .next (s.setFlagged x (addFlagged (s.getV x) (s.getV y))).advance

/-- `8xy5` (R117): `V[x]` minus `V[y]`. -/
def execSubReg (x y : Reg) (s : State) : Result :=
  .next (s.setFlagged x (subFlagged (s.getV x) (s.getV y))).advance

/-- `8xy6` (R118). -/
def execShr (x y : Reg) (s : State) : Result :=
  .next (s.setFlagged x (shrFlagged (s.shiftSource x y))).advance

/-- `8xy7` (R119): `V[y]` minus `V[x]`. -/
def execSubn (x y : Reg) (s : State) : Result :=
  .next (s.setFlagged x (subFlagged (s.getV y) (s.getV x))).advance

/-- `8xyE` (R120). -/
def execShl (x y : Reg) (s : State) : Result :=
  .next (s.setFlagged x (shlFlagged (s.shiftSource x y))).advance

/-- `Cxkk` (R121): the step's random byte, a free value, and `kk`. -/
def execRnd (x : Reg) (kk : Byte) (s : State) : Result :=
  .next ((s.setV x (s.rndByte &&& kk)).nextDraw).advance

end Sys2Proof.Machine
end

