-- ==== Sys2Proof/Machine/Fetch.lean ====
section
/-! DEFINITION. What a step does around an instruction: the fetch, the two faults before an instruction's rule is reached, and the steps that execute nothing (40_step_and_dispatch.md R91 to R93, R98). -/

namespace Sys2Proof.Machine

/-- The word at `PC`, both of whose bytes must lie in the address space; none for a fetch fault (R92). -/
def State.fetch? (s : State) : Option Word :=
  if 0xFFF < s.pc.toNat + 1 then none
  else some (wordOfBytes (s.readByte s.pc.toNat) (s.readByte (s.pc.toNat + 1)))

/-- A fetch fault records the word `0x0000`, there being no whole word (R92). -/
def fetchFault (s : State) : Result := .next (s.raise .outOfBoundsAddress 0x0000#16)

/-- A word that is no instruction (R93, R151). -/
def unknownOpcodeFault (w : Word) (s : State) : Result := .next (s.raise .unknownOpcode w)

/-- The waiting step: the poll alone, nothing is fetched (R91). -/
def waitingStep (s : State) : Result := .next (s.keyPoll s.waitReg)

/-- The halted step changes nothing (R98). -/
def haltedStep (s : State) : Result := .next s

/-- The two bytes of a word at `PC`, high byte first (R57). Where `PC` leaves no room for them, nothing is stored. -/
def State.placeWord (s : State) (w : Word) : State :=
  if 0xFFF < s.pc.toNat + 1 then s else s.storeBytes s.pc.toNat [highByte w, lowByte w]

end Sys2Proof.Machine
end

