-- ==== Sys2Proof/Machine/Step.lean ====
section
/-! DEFINITION. The event `Step` (40_step_and_dispatch.md R90) and the host's entry that places an instruction for it. -/

namespace Sys2Proof.Machine

/-- `Step`: one of three things, chosen by `RUN` at its start (R90). Its random argument is the state's next draw (log entry 4). -/
def step (s : State) : Host.Outcome State Fault Refusal :=
  match s.run with
  | .halted => haltedStep s
  | .waitingForKey => waitingStep s
  | .running =>
    match s.fetch? with
    | none => fetchFault s
    | some w =>
      match decode w with
      | .error _ => unknownOpcodeFault w s
      | .ok i => exec i s

/-- The state with the table's word stored where `step` fetches its next instruction: at `PC`, with RUN Running, without which a step fetches nothing (log entries 10 and 20). -/
def State.withFetchWord (s : State) (nbits w : Nat) : State :=
  (s.placeWord (BitVec.ofNat 16 (w % 2 ^ nbits))).resume

end Sys2Proof.Machine
end

