-- ==== Sys2Proof/Machine/Events.lean ====
section
/-! DEFINITION. The host's side of the core: the four events of 00_scope.md R18 on a started and on a not started machine, the read ports of 10_state.md R45 to R47, the tick of 60_exceptions.md R170 and the reference schedule of 70_reset_and_hazards.md R195. -/

namespace Sys2Proof.Machine

/-! ### Reset and load (R41, R180 to R182) -/

/-- `MAX_PROG` (00_scope.md R6). -/
def maxProg : Nat := memSize - progBase

/-- Every piece of state at its reset value, the program's bytes from `0x200` up, `COMPAT` as given (R36, R56, R180). -/
def bootState (program : List Byte) (compat : Compat) : State :=
  { State.reset with mem := Memory.writeBytes [] progBase program, compat := compat }

/-- `Reset(program, COMPAT)`: nothing of the state before goes into it (R180). A program of more than 3584 bytes is refused whole and the machine is not started (R156, R182). The number of the next random draw is the host's and goes on (log entry 4). -/
def resetEvent (program : List Byte) (compat : Compat) (rndIndex : Nat) : Result :=
  if maxProg < program.length then .fault .programTooLarge
  else .next { bootState program compat with rndIndex := rndIndex }

/-! ### Timer pulse (R165, R166) -/

/-- One decrement, floored at 0 (R25, R165). -/
def countDown (b : Byte) : Byte := if b = 0x00#8 then 0x00#8 else b - 1

/-- `TimerPulse`: both timers count down unless the machine is halted. -/
def State.timerPulse (s : State) : State :=
  match s.run with
  | .halted => s
  | .running => (s.setDt (countDown s.dt)).setSt (countDown s.st)
  | .waitingForKey => (s.setDt (countDown s.dt)).setSt (countDown s.st)

/-- `n` timer pulses. -/
def State.timerPulses : Nat → State → State
  | 0, s => s
  | n + 1, s => State.timerPulses n s.timerPulse

/-! ### The transition system (R18) -/

/-- The events. The random argument of `Step` is the state's next draw (log entry 4). -/
inductive Event where
  /-- `Reset(program, COMPAT)` (R180). -/
  | reset (program : List Byte) (compat : Compat)
  /-- `Step(rnd)` (R90). -/
  | step
  /-- `TimerPulse` (R165). -/
  | timerPulse
  /-- `SetKeys(k)` (R42). -/
  | setKeys (k : BitVec 16)
  deriving DecidableEq, Repr

/-- The effect of an event on a started machine, atomic (R18, R96). -/
def deliver (e : Event) (s : State) : Result :=
  match e with
  | .reset program compat => resetEvent program compat s.rndIndex
  | .step => step s
  | .timerPulse => .next s.timerPulse
  | .setKeys k => .next (s.setKeys k)

/-! ### Started and not started (R156, R180, R182) -/

/-- The machine as the host meets it. -/
inductive Vm where
  /-- It has no defined state and waits for a `Reset`: before the first one, or after a refused load, whose error the load interface reports (R156, R182). The number of the next random draw is the host's (log entry 4). -/
  | notStarted (report : Option Fault) (rndIndex : Nat)
  /-- It has a state. -/
  | started (s : State)
  deriving DecidableEq, Repr

/-- Before any `Reset`, "the only way the machine is initialised" (R180; log entry 22). -/
def Vm.off (rndIndex : Nat) : Vm := .notStarted none rndIndex

/-- The host's number of the next random draw (log entry 4). -/
def Vm.rndIndex : Vm → Nat
  | .notStarted _ n => n
  | .started s => s.rndIndex

/-- Which events a machine accepts: a started one every event, one not started "no `Step`, `TimerPulse` or `SetKeys`" (R182). -/
def Vm.accepts (e : Event) : Vm → Bool
  | .started _ => true
  | .notStarted _ _ =>
    match e with
    | .reset _ _ => true
    | .step => false
    | .timerPulse => false
    | .setKeys _ => false

/-- The machine after an answer: a refused load leaves it not started, with the error reported (R182). -/
def Vm.ofResult (rndIndex : Nat) : Result → Host.Outcome Vm Fault Refusal
  | .next t => .next (.started t)
  | .fault .programTooLarge => .next (.notStarted (some .programTooLarge) rndIndex)
  | .refused r => .refused r

/-- The effect of an event on the machine. One that is not accepted leaves it waiting for another `Reset` (R182; log entry 22). -/
def Vm.deliver (e : Event) (m : Vm) : Host.Outcome Vm Fault Refusal :=
  match m with
  | .started s => Vm.ofResult s.rndIndex (Sys2Proof.Machine.deliver e s)
  | .notStarted _ n =>
    match e with
    | .reset program compat => Vm.ofResult n (resetEvent program compat n)
    | .step => .next m
    | .timerPulse => .next m
    | .setKeys _ => .next m

/-- Events one after another. A refused load does not end them: a later `Reset` may start the machine (R156). -/
def Vm.deliverAll : List Event → Vm → Host.Outcome Vm Fault Refusal
  | [], m => .next m
  | e :: es, m =>
    match m.deliver e with
    | .next m' => Vm.deliverAll es m'
    | .fault f => .fault f
    | .refused r => .refused r

/-! ### The tick (R48, R170) -/

/-- One iteration of the host's loop: keys, one step, then the pulses due (R48, R170). -/
def tick (k : BitVec 16) (pulses : Nat) (s : State) : Result :=
  match step (s.setKeys k) with
  | .next t => .next (State.timerPulses pulses t)
  | .fault f => .fault f
  | .refused r => .refused r

/-! ### Read ports (R45 to R47), without side effect -/

/-- The display port: the linear snapshot, pixel `(x, y)` at bit `64*y + x` (R45, R137). -/
def State.displayPort (s : State) : Vector Bool (32 * 64) := s.fb.flatten

/-- `tone_active` (R46). -/
def State.toneActive (s : State) : Bool := decide (0 < s.st.toNat)

/-- The code of a run state (R31). -/
def RunState.code : RunState → BitVec 2
  | .running => 0
  | .waitingForKey => 1
  | .halted => 2

/-- The code of an error kind (R150). -/
def FaultKind.code : FaultKind → BitVec 3
  | .none => 0
  | .unknownOpcode => 1
  | .stackOverflow => 2
  | .stackUnderflow => 3
  | .outOfBoundsAddress => 4
  | .programTooLarge => 5

/-- The code of a mode (R30). -/
def compatCode : Compat → BitVec 1
  | .modern => 0
  | .legacy => 1

/-- What the load interface reports: code 5 after a refused load (R150, R156). -/
def Vm.loadReport : Vm → FaultKind
  | .started _ => .none
  | .notStarted none _ => .none
  | .notStarted (some .programTooLarge) _ => .programTooLarge

/-- The outputs of the status and fault port (R47). -/
structure StatusPort where
  run : BitVec 2
  faultKind : BitVec 3
  faultWord : Word
  faultAddr : Word
  deriving DecidableEq, Repr

/-- The status and fault port (R47). -/
def State.statusPort (s : State) : StatusPort where
  run := s.run.code
  faultKind := s.faultKind.code
  faultWord := s.faultWord
  faultAddr := s.faultAddr

/-! ### The reference schedule (R8, R195, optional) -/

/-- The default of `IPS` (R8). -/
def defaultIps : Nat := 700

/-- The machine under the reference schedule: the host's one accumulator, and the rate it was given at startup, "immutable thereafter" (R8, R195). -/
structure Scheduled where
  vm : Vm
  acc : Nat
  ips : Nat
  deriving DecidableEq, Repr

/-- Startup: the reset, `acc` at 0, and `IPS` as given, 700 where none is (R8, R195). A refused load leaves the machine not started. -/
def Scheduled.reset (program : List Byte) (compat : Compat) (m : Vm) (ips : Nat := defaultIps) :
    Host.Outcome Scheduled Fault Refusal :=
  match m.deliver (.reset program compat) with
  | .next m' => .next { vm := m', acc := 0, ips := ips }
  | .fault f => .fault f
  | .refused r => .refused r

/-- `while acc >= IPS and RUN != Halted: acc <- acc - IPS ; TimerPulse`, with a bound on the rounds before the accumulator: the state and the accumulator after it. -/
def Scheduled.pulse (ips : Nat) : Nat → Nat → State → State × Nat
  | 0, acc, s => (s, acc)
  | rounds + 1, acc, s =>
    if ips ≤ acc ∧ s.run ≠ .halted then Scheduled.pulse ips rounds (acc - ips) s.timerPulse
    else (s, acc)

/-- `SetKeys(k) if the keys changed` (R195). -/
def State.setKeysIf (s : State) : Option (BitVec 16) → State
  | some k => s.setKeys k
  | none => s

/-- A tick of the reference schedule (R195): keys if they changed, one step, `acc + 60`, and the pulses due. The rate stays as it was given. For `IPS >= 1` the bound on the rounds, `acc` itself, is never short (log entry 21). A machine not started accepts none of it (R182). -/
def Scheduled.tick (keys : Option (BitVec 16)) (h : Scheduled) :
    Host.Outcome Scheduled Fault Refusal :=
  match h.vm with
  | .notStarted _ _ => .next h
  | .started s =>
    match step (s.setKeysIf keys) with
    | .next t =>
      let r := Scheduled.pulse h.ips (h.acc + 60) (h.acc + 60) t
      .next { vm := .started r.1, acc := r.2, ips := h.ips }
    | .fault f => .fault f
    | .refused r => .refused r

end Sys2Proof.Machine
end

