-- ==== Sys2Proof/Safety.lean ====
section
/-! DEFINITION. The words claims are stated in: the parts of a state and frames over them, the fault condition of each instruction, the invariant of the machine and the reachable states. -/

namespace Sys2Proof.Machine

/-! ### Parts and frames -/

/-- A smallest piece of state: one for each register, entry, byte and pixel of 10_state.md R36, and the model's `rndIndex`. -/
inductive Part where
  | v (x : Reg)
  | i
  | pc
  | stackEntry (k : Fin 16)
  | sp
  | dt
  | st
  | byte (a : Nat)
  | pixel (y : Fin 32) (x : Fin 64)
  | key (k : Reg)
  | compat
  | run
  | waitReg
  | faultKind
  | faultWord
  | faultAddr
  | rndIndex
  deriving DecidableEq, Repr

/-- The part holds in `t` what it held in `s`. -/
def Part.same (s t : State) : Part → Prop
  | .v x => t.getV x = s.getV x
  | .i => t.i = s.i
  | .pc => t.pc = s.pc
  | .stackEntry k => t.stack[k.val] = s.stack[k.val]
  | .sp => t.sp = s.sp
  | .dt => t.dt = s.dt
  | .st => t.st = s.st
  | .byte a => t.readByte a = s.readByte a
  | .pixel y x => t.fb.pixel y x = s.fb.pixel y x
  | .key k => t.keyDown k = s.keyDown k
  | .compat => t.compat = s.compat
  | .run => t.run = s.run
  | .waitReg => t.waitReg = s.waitReg
  | .faultKind => t.faultKind = s.faultKind
  | .faultWord => t.faultWord = s.faultWord
  | .faultAddr => t.faultAddr = s.faultAddr
  | .rndIndex => t.rndIndex = s.rndIndex

/-- Every part but those that `may` change is unchanged from `s` to `t`. -/
def Frame (may : Part → Prop) (s t : State) : Prop := ∀ p : Part, ¬ may p → Part.same s t p

/-- Every part but the listed ones is unchanged. -/
abbrev FrameBut (may : List Part) (s t : State) : Prop := Frame (fun p => p ∈ may) s t

/-- The parts a fault writes: RUN and the fault record (60_exceptions.md R155). -/
def Part.ofFault : Part → Prop
  | .run => True
  | .faultKind => True
  | .faultWord => True
  | .faultAddr => True
  | .v _ | .i | .pc | .stackEntry _ | .sp | .dt | .st | .byte _ | .pixel _ _ | .key _
  | .compat | .waitReg | .rndIndex => False

/-- `t` is `s` just before the faulting step, plus RUN and the fault record (R155, R157). -/
def HaltsWith (kind : FaultKind) (word : Word) (s t : State) : Prop :=
  t.run = .halted ∧ t.faultKind = kind ∧ t.faultWord = word ∧ t.faultAddr = s.pc
    ∧ Frame Part.ofFault s t

/-! ### Fault conditions (R154, R161) -/

/-- The fault a decoded instruction raises in a state, if it raises one: the table of R161 with the conditions of R152 to R154. -/
def instrFault (i : Instr) (s : State) : Option FaultKind :=
  match i with
  | .ret => if s.sp.val = 0 then some .stackUnderflow else none
  | .call _ => if s.sp.val = 16 then some .stackOverflow else none
  | .drw _ _ n => if 1 ≤ n.toNat ∧ 0xFFF < s.i.toNat + n.toNat - 1 then some .outOfBoundsAddress else none
  | .ldB _ => if 0xFFF < s.i.toNat + 2 then some .outOfBoundsAddress else none
  | .storeRegs x => if 0xFFF < s.i.toNat + x.toNat then some .outOfBoundsAddress else none
  | .loadRegs x => if 0xFFF < s.i.toNat + x.toNat then some .outOfBoundsAddress else none
  | .addI x => if 0xFFFF < s.i.toNat + (s.getV x).toNat then some .outOfBoundsAddress else none
  | .cls | .jp _ | .seImm _ _ | .sneImm _ _ | .seReg _ _ | .ldImm _ _ | .addImm _ _
  | .ldReg _ _ | .orReg _ _ | .andReg _ _ | .xorReg _ _ | .addReg _ _ | .subReg _ _
  | .shr _ _ | .subn _ _ | .shl _ _ | .sneReg _ _ | .ldI _ | .jpV0 _ _ | .rnd _ _
  | .skp _ | .sknp _ | .ldVxDt _ | .ldVxK _ | .ldDtVx _ | .ldStVx _ | .ldF _ => none

/-- The word a running machine fetches: the two bytes at `PC`, high byte first (20_memory.md R57). -/
def State.wordAtPc (s : State) : Word :=
  wordOfBytes (s.readByte s.pc.toNat) (s.readByte (s.pc.toNat + 1))

/-- The fault a running machine's step raises, if it raises one, with the word it records: the fetch bound first, then decode, then the instruction's own test (R159). -/
def stepFault (s : State) : Option (FaultKind × Word) :=
  if 0xFFF ≤ s.pc.toNat then some (.outOfBoundsAddress, 0x0000#16)
  else
    match decode s.wordAtPc with
    | .error _ => some (.unknownOpcode, s.wordAtPc)
    | .ok i => (instrFault i s).map fun k => (k, s.wordAtPc)

/-- Whether an instruction may write the register: its destination `x`, or `V[0]` to `V[x]` for `Fx65`, and `VF` for the six that write a flag (10_state.md R21). -/
def writesV (i : Instr) (r : Reg) : Bool :=
  match i with
  | .ldImm x _ | .addImm x _ | .ldReg x _ | .orReg x _ | .andReg x _ | .xorReg x _
  | .rnd x _ | .ldVxDt x | .ldVxK x => r == x
  | .addReg x _ | .subReg x _ | .shr x _ | .subn x _ | .shl x _ => r == x || r == regF
  | .drw _ _ _ => r == regF
  | .loadRegs x => decide (r.toNat ≤ x.toNat)
  | .cls | .ret | .jp _ | .call _ | .seImm _ _ | .sneImm _ _ | .seReg _ _ | .sneReg _ _
  | .ldI _ | .jpV0 _ _ | .skp _ | .sknp _ | .ldDtVx _ | .ldStVx _ | .addI _ | .ldF _
  | .ldB _ | .storeRegs _ => false

/-- The five instructions that consult `COMPAT` (30_encoding.md R81, 10_state.md R30). -/
def readsCompat : Instr → Bool
  | .shr _ _ | .shl _ _ | .storeRegs _ | .loadRegs _ | .jpV0 _ _ => true
  | .cls | .ret | .jp _ | .call _ | .seImm _ _ | .sneImm _ _ | .seReg _ _ | .ldImm _ _
  | .addImm _ _ | .ldReg _ _ | .orReg _ _ | .andReg _ _ | .xorReg _ _ | .addReg _ _
  | .subReg _ _ | .subn _ _ | .sneReg _ _ | .ldI _ | .rnd _ _ | .drw _ _ _ | .skp _
  | .sknp _ | .ldVxDt _ | .ldVxK _ | .ldDtVx _ | .ldStVx _ | .addI _ | .ldF _ | .ldB _ => false

/-! ### The invariant and the reachable states -/

/-- What holds in every state a run reaches. -/
structure Inv (s : State) : Prop where
  /-- Memory keeps its canonical form. -/
  memWf : s.mem.wf
  /-- "The largest value any rule can write is `0x10FE`" (R22). -/
  pcBound : s.pc.toNat ≤ 0x10FE
  /-- A return address is at most `0x1000` (R100). -/
  stackBound : ∀ k : Fin 16, (s.stack[k.val]).toNat ≤ 0x1000
  /-- The fault record is written exactly in Halted (R31, R33, R158). -/
  haltedIff : s.run = .halted ↔ s.faultKind ≠ .none
  /-- "`PC = FAULT_ADDR` in every halted state" (R155). -/
  haltedAddr : s.run = .halted → s.faultAddr = s.pc
  /-- The fault record holds its reset values until a fault (R33). -/
  cleanRecord : s.run ≠ .halted → s.faultWord = 0x0000#16 ∧ s.faultAddr = 0x0000#16
  /-- "Code 5 never appears in `FAULT_KIND` of a running or halted machine" (R150). -/
  kindLegal : s.faultKind ≠ .programTooLarge
  /-- A fault recorded at `0x0FFF` or above is a fetch fault (R92). -/
  fetchFaultAddr : s.run = .halted → 0xFFF ≤ s.faultAddr.toNat →
    s.faultKind = .outOfBoundsAddress ∧ s.faultWord = 0x0000#16
  /-- While waiting, the word at `PC` is the `Fx0A` that suspended (R32). -/
  waitingWord : s.run = .waitingForKey → s.fetch? = some (encode (.ldVxK s.waitReg))

/-- The machines that the host's events lead to, from the one no `Reset` has started yet (R18, R180): refused loads and later resets are among the events. -/
inductive Reachable : Vm → Prop where
  /-- Before any `Reset`, at whichever draw the host's random source stands. -/
  | off (n : Nat) : Reachable (.off n)
  /-- One more event. -/
  | event (e : Event) (m m' : Vm) : Reachable m → m.deliver e = .next m' → Reachable m'

/-- A run is safe as long as no fatal error has halted it (00_scope.md R19). -/
def State.safe (s : State) : Prop := s.run ≠ .halted

end Sys2Proof.Machine
end

