-- ==== Sys2Proof/Certificates/Slice0/Obligations.lean ====
section
/-! DEFINITION. The statements for the provers, family by family. A statement about an instruction says which word it is, that `exec` answers a next state, what that state holds, and the frame: every other part unchanged. -/

open Sys2Proof Sys2Proof.Machine

/-! ### Encoding and decoding (30_encoding.md) -/

/-- Words written out from the spec: R71's `0xD125`, R75's `0x6005` and `0x7003`, and one word of each family with the fields of R77. -/
def Obligations.SpecWordsDecode : Prop :=
  decode 0xD125#16 = .ok (.drw 1#4 2#4 5#4) ∧ decode 0x6005#16 = .ok (.ldImm 0#4 5#8)
    ∧ decode 0x7003#16 = .ok (.addImm 0#4 3#8) ∧ decode 0x1204#16 = .ok (.jp 0x204#12)
    ∧ decode 0xB234#16 = .ok (.jpV0 0x234#12 2#4) ∧ decode 0x00EE#16 = .ok .ret
    ∧ decode 0xF355#16 = .ok (.storeRegs 3#4) ∧ decode 0xE39E#16 = .ok (.skp 3#4)
    ∧ decode 0x812E#16 = .ok (.shl 1#4 2#4)

/-- Every well-formed instruction is what its word, and its two bytes in memory order, decode to: no bit of an encoding is dropped (R71, R72, R74, R77, 20_memory.md R57). -/
def Obligations.DecodeOfEncode : Prop :=
  ∀ i : Instr, i.wellFormed = true →
    decode (encode i) = .ok i ∧ ∀ rest, decodeBytes (encodeBytes i ++ rest) = .ok (i, rest)

/-- What a word decodes to is well formed, and its encoding is that word (R71, R72, R74, R77). -/
def Obligations.EncodeOfDecode : Prop :=
  ∀ (w : Word) (i : Instr), decode w = .ok i → i.wellFormed = true ∧ encode i = w

/-- A word is a row's instruction exactly when it matches the row, and it matches at most one row (R77). -/
def Obligations.WordMatchesRowIffDecodes : Prop :=
  ∀ w : Word,
    (∀ j ∈ rowSamples, (j.row.covers w = true ↔ ∃ i, decode w = .ok i ∧ i.row = j.row))
      ∧ ∀ r ∈ opcodeMap, ∀ r' ∈ opcodeMap, r.covers w = true → r'.covers w = true → r = r'

/-- Every word is an instruction or unknown, and the unknown words are those of R78's list (R74, R78, R79); that `0nnn` is illegal and decoding strict are the spec's decisions D1 and D3. -/
def Obligations.IllegalWordsAreTheListed : Prop :=
  ∀ w : Word,
    ((∃ i, decode w = .ok i) ∨ decode w = .error (.unknownOpcode w))
      ∧ (decode w = .error (.unknownOpcode w) ↔
          (fieldKind w = 0x0#4 ∧ w ≠ 0x00E0#16 ∧ w ≠ 0x00EE#16)
            ∨ (fieldKind w = 0x5#4 ∧ fieldN w ≠ 0x0#4)
            ∨ (fieldKind w = 0x8#4 ∧ fieldN w ∈ [0x8#4, 0x9#4, 0xA#4, 0xB#4, 0xC#4, 0xD#4, 0xF#4])
            ∨ (fieldKind w = 0x9#4 ∧ fieldN w ≠ 0x0#4)
            ∨ (fieldKind w = 0xE#4 ∧ fieldKK w ∉ [0x9E#8, 0xA1#8])
            ∨ (fieldKind w = 0xF#4 ∧ fieldKK w ∉
                [0x07#8, 0x0A#8, 0x15#8, 0x18#8, 0x1E#8, 0x29#8, 0x33#8, 0x55#8, 0x65#8]))

/-! ### The step (40_step_and_dispatch.md, 60_exceptions.md) -/

/-- Halted: a step changes nothing, and no event but `Reset` leaves Halted or touches the fault record (R98). -/
def Obligations.HaltedIsTerminal : Prop :=
  ∀ s : State, s.run = .halted →
    step s = .next s
      ∧ ∀ (e : Event) (t : State), (∀ program compat, e ≠ .reset program compat) →
          deliver e s = .next t →
          t.run = .halted ∧ t.faultKind = s.faultKind ∧ t.faultWord = s.faultWord
            ∧ t.faultAddr = s.faultAddr

/-- The waiting step: the least key that is down goes to `V[WAIT_REG]`, `PC` advances, the machine runs; with no key down nothing changes (R91). The least key and the level test are the spec's decision D13. -/
def Obligations.WaitingStepPollsKeys : Prop :=
  ∀ s : State, s.run = .waitingForKey →
    (∀ k : Reg, s.keyDown k = true → (∀ j : Reg, j.toNat < k.toNat → s.keyDown j = false) →
        ∃ t, step s = .next t ∧ t.getV s.waitReg = k.setWidth 8 ∧ t.pc = s.pc + 2
          ∧ t.run = .running ∧ FrameBut [.v s.waitReg, .pc, .run] s t)
      ∧ ((∀ k : Reg, s.keyDown k = false) → step s = .next s)

/-- Fetch: with `PC >= 0xFFF` the step faults and records the word `0x0000`; below, the word is the two bytes at `PC`, high byte first, and a fault of such a step records an address below `0xFFF` (R92). The word is the spec's decision D7, the address its own inference in R92. -/
def Obligations.FetchReadsWordOrFaults : Prop :=
  ∀ s : State, s.run = .running →
    (0xFFF ≤ s.pc.toNat → ∃ t, step s = .next t ∧ HaltsWith .outOfBoundsAddress 0x0000#16 s t)
      ∧ (s.pc.toNat < 0xFFF →
          s.fetch? = some (s.readByte s.pc.toNat ++ s.readByte (s.pc.toNat + 1))
            ∧ ∀ t, step s = .next t → t.run = .halted → t.faultAddr.toNat < 0xFFF)

/-- A fetched word that is no instruction: UnknownOpcode, recording the word and its address, whatever the mode (R151). -/
def Obligations.UnknownWordHalts : Prop :=
  ∀ s : State, s.run = .running → s.pc.toNat < 0xFFF →
    (∀ i, decode (s.readByte s.pc.toNat ++ s.readByte (s.pc.toNat + 1)) ≠ .ok i) →
    ∃ t, step s = .next t
      ∧ HaltsWith .unknownOpcode (s.readByte s.pc.toNat ++ s.readByte (s.pc.toNat + 1)) s t

/-- A step runs the decoded instruction and adds nothing around it (R90, R93). -/
def Obligations.StepRunsDecodedInstruction : Prop :=
  ∀ (s : State) (i : Instr), s.run = .running → s.pc.toNat < 0xFFF →
    decodeBytes [s.readByte s.pc.toNat, s.readByte (s.pc.toNat + 1)] = .ok (i, []) →
    i.wellFormed = true ∧ step s = exec i s

/-- A running machine's step halts exactly on the faults of R161, in the order of R159, changing nothing but RUN and the fault record (R96, R155); otherwise it does not halt. That a faulting instruction has no effect is the spec's decision D5, R159 and R161 are its inferences. -/
def Obligations.StepHaltsExactlyOnFault : Prop :=
  ∀ s : State, s.run = .running →
    (∀ kind word, stepFault s = some (kind, word) →
        ∃ t, step s = .next t ∧ HaltsWith kind word s t)
      ∧ (stepFault s = none → ∃ t, step s = .next t ∧ t.run ≠ .halted)

/-! ### Register and arithmetic (42_register_alu.md) -/

/-- `6xkk` (R110). -/
def Obligations.LdImmSetsRegister : Prop :=
  ∀ (x : Reg) (kk : Byte) (s : State),
    decode (0x6#4 ++ x ++ kk) = .ok (.ldImm x kk)
      ∧ ∃ t, exec (.ldImm x kk) s = .next t ∧ t.getV x = kk ∧ t.pc = s.pc + 2
        ∧ FrameBut [.v x, .pc] s t

/-- `7xkk` (R111): modulo 256, no flag (92_eei_decisions.md D11 says why). -/
def Obligations.AddImmWrapsWithoutFlag : Prop :=
  ∀ (x : Reg) (kk : Byte) (s : State),
    decode (0x7#4 ++ x ++ kk) = .ok (.addImm x kk)
      ∧ ∃ t, exec (.addImm x kk) s = .next t
        ∧ (t.getV x).toNat = ((s.getV x).toNat + kk.toNat) % 256 ∧ t.pc = s.pc + 2
        ∧ FrameBut [.v x, .pc] s t

/-- `8xy0` (R112). -/
def Obligations.LdRegCopiesRegister : Prop :=
  ∀ (x y : Reg) (s : State),
    decode (0x8#4 ++ x ++ y ++ 0x0#4) = .ok (.ldReg x y)
      ∧ ∃ t, exec (.ldReg x y) s = .next t ∧ t.getV x = s.getV y ∧ t.pc = s.pc + 2
        ∧ FrameBut [.v x, .pc] s t

/-- `8xy1`, `8xy2`, `8xy3` (R113, R114, R115): `VF` is not reset (D11 says why). -/
def Obligations.LogicOpsLeaveFlagAlone : Prop :=
  ∀ (x y : Reg) (s : State),
    (decode (0x8#4 ++ x ++ y ++ 0x1#4) = .ok (.orReg x y)
        ∧ ∃ t, exec (.orReg x y) s = .next t ∧ t.getV x = s.getV x ||| s.getV y
          ∧ t.pc = s.pc + 2 ∧ FrameBut [.v x, .pc] s t)
      ∧ (decode (0x8#4 ++ x ++ y ++ 0x2#4) = .ok (.andReg x y)
        ∧ ∃ t, exec (.andReg x y) s = .next t ∧ t.getV x = s.getV x &&& s.getV y
          ∧ t.pc = s.pc + 2 ∧ FrameBut [.v x, .pc] s t)
      ∧ (decode (0x8#4 ++ x ++ y ++ 0x3#4) = .ok (.xorReg x y)
        ∧ ∃ t, exec (.xorReg x y) s = .next t ∧ t.getV x = s.getV x ^^^ s.getV y
          ∧ t.pc = s.pc + 2 ∧ FrameBut [.v x, .pc] s t)

/-- `8xy4` (R116): the flag is written after the sum, so it stands also with `x = 15` (D9 says why). -/
def Obligations.AddRegSetsCarry : Prop :=
  ∀ (x y : Reg) (s : State),
    decode (0x8#4 ++ x ++ y ++ 0x4#4) = .ok (.addReg x y)
      ∧ ∃ t, exec (.addReg x y) s = .next t
        ∧ (x ≠ 0xF#4 → (t.getV x).toNat = ((s.getV x).toNat + (s.getV y).toNat) % 256)
        ∧ t.getV 0xF#4 = (if 255 < (s.getV x).toNat + (s.getV y).toNat then 1#8 else 0#8)
        ∧ t.pc = s.pc + 2 ∧ FrameBut [.v x, .v 0xF#4, .pc] s t

/-- `8xy5` (R117): the flag is 1 when there is no borrow (D10 says why). -/
def Obligations.SubRegSetsNoBorrow : Prop :=
  ∀ (x y : Reg) (s : State),
    decode (0x8#4 ++ x ++ y ++ 0x5#4) = .ok (.subReg x y)
      ∧ ∃ t, exec (.subReg x y) s = .next t
        ∧ (x ≠ 0xF#4 → (t.getV x).toNat = ((s.getV x).toNat + 256 - (s.getV y).toNat) % 256)
        ∧ t.getV 0xF#4 = (if (s.getV y).toNat ≤ (s.getV x).toNat then 1#8 else 0#8)
        ∧ t.pc = s.pc + 2 ∧ FrameBut [.v x, .v 0xF#4, .pc] s t

/-- `8xy7` (R119): the subtraction the other way round. -/
def Obligations.SubnSetsNoBorrow : Prop :=
  ∀ (x y : Reg) (s : State),
    decode (0x8#4 ++ x ++ y ++ 0x7#4) = .ok (.subn x y)
      ∧ ∃ t, exec (.subn x y) s = .next t
        ∧ (x ≠ 0xF#4 → (t.getV x).toNat = ((s.getV y).toNat + 256 - (s.getV x).toNat) % 256)
        ∧ t.getV 0xF#4 = (if (s.getV x).toNat ≤ (s.getV y).toNat then 1#8 else 0#8)
        ∧ t.pc = s.pc + 2 ∧ FrameBut [.v x, .v 0xF#4, .pc] s t

/-- `8xy6` (R118): the source by the mode, the bit shifted out to `VF`. -/
def Obligations.ShrShiftsModeSource : Prop :=
  ∀ (x y : Reg) (s : State) (b : Byte),
    b = (if s.compat = .legacy then s.getV y else s.getV x) →
    decode (0x8#4 ++ x ++ y ++ 0x6#4) = .ok (.shr x y)
      ∧ ∃ t, exec (.shr x y) s = .next t ∧ (x ≠ 0xF#4 → (t.getV x).toNat = b.toNat / 2)
        ∧ t.getV 0xF#4 = (if b.getLsbD 0 then 1#8 else 0#8)
        ∧ t.pc = s.pc + 2 ∧ FrameBut [.v x, .v 0xF#4, .pc] s t

/-- `8xyE` (R120). -/
def Obligations.ShlShiftsModeSource : Prop :=
  ∀ (x y : Reg) (s : State) (b : Byte),
    b = (if s.compat = .legacy then s.getV y else s.getV x) →
    decode (0x8#4 ++ x ++ y ++ 0xE#4) = .ok (.shl x y)
      ∧ ∃ t, exec (.shl x y) s = .next t ∧ (x ≠ 0xF#4 → (t.getV x).toNat = b.toNat * 2 % 256)
        ∧ t.getV 0xF#4 = (if b.getLsbD 7 then 1#8 else 0#8)
        ∧ t.pc = s.pc + 2 ∧ FrameBut [.v x, .v 0xF#4, .pc] s t

/-- `Cxkk` (R121). The step's random byte is the model's free value, element `rndIndex` of an opaque stream, whatever that element is (log entry 4). -/
def Obligations.RndMasksFreeByte : Prop :=
  ∀ (x : Reg) (kk : Byte) (s : State),
    decode (0xC#4 ++ x ++ kk) = .ok (.rnd x kk)
      ∧ ∃ t, exec (.rnd x kk) s = .next t ∧ t.getV x = Config.rndByte s.rndIndex &&& kk
        ∧ t.rndIndex = s.rndIndex + 1 ∧ t.pc = s.pc + 2 ∧ FrameBut [.v x, .pc, .rndIndex] s t

/-! ### Control flow (41_control_flow.md) -/

/-- `00EE` (R100): the newest return address as it stands; StackUnderflow on an empty stack. -/
def Obligations.RetPopsOrUnderflows : Prop :=
  decode 0x00EE#16 = .ok .ret
    ∧ (∀ (s : State) (k : Fin 16), s.sp.val = k.val + 1 →
        ∃ t, exec .ret s = .next t ∧ t.pc = s.stack[k.val] ∧ t.sp.val = k.val
          ∧ FrameBut [.sp, .pc] s t)
    ∧ ∀ s : State, s.sp.val = 0 →
        ∃ t, exec .ret s = .next t ∧ HaltsWith .stackUnderflow 0x00EE#16 s t

/-- `1nnn` (R101). -/
def Obligations.JpSetsPc : Prop :=
  ∀ (nnn : Addr) (s : State),
    decode (0x1#4 ++ nnn) = .ok (.jp nnn)
      ∧ ∃ t, exec (.jp nnn) s = .next t ∧ t.pc.toNat = nnn.toNat ∧ FrameBut [.pc] s t

/-- `2nnn` (R102): the address after the call is pushed; StackOverflow with 16 held. What is pushed is the spec's decision D8. -/
def Obligations.CallPushesOrOverflows : Prop :=
  ∀ (nnn : Addr) (s : State),
    decode (0x2#4 ++ nnn) = .ok (.call nnn)
      ∧ (∀ k : Fin 16, s.sp.val = k.val →
          ∃ t, exec (.call nnn) s = .next t ∧ t.stack[k.val] = s.pc + 2 ∧ t.sp.val = k.val + 1
            ∧ t.pc.toNat = nnn.toNat ∧ FrameBut [.stackEntry k, .sp, .pc] s t)
      ∧ (s.sp.val = 16 →
          ∃ t, exec (.call nnn) s = .next t ∧ HaltsWith .stackOverflow (0x2#4 ++ nnn) s t)

/-- `3xkk` and `4xkk` (R103, R104). -/
def Obligations.SkipsOnImmediateCompare : Prop :=
  ∀ (x : Reg) (kk : Byte) (s : State),
    (decode (0x3#4 ++ x ++ kk) = .ok (.seImm x kk)
        ∧ ∃ t, exec (.seImm x kk) s = .next t
          ∧ t.pc = (if s.getV x = kk then s.pc + 4 else s.pc + 2) ∧ FrameBut [.pc] s t)
      ∧ (decode (0x4#4 ++ x ++ kk) = .ok (.sneImm x kk)
        ∧ ∃ t, exec (.sneImm x kk) s = .next t
          ∧ t.pc = (if s.getV x ≠ kk then s.pc + 4 else s.pc + 2) ∧ FrameBut [.pc] s t)

/-- `5xy0` and `9xy0` (R105, R106); that `9xy0` exists is the spec's decision D2. -/
def Obligations.SkipsOnRegisterCompare : Prop :=
  ∀ (x y : Reg) (s : State),
    (decode (0x5#4 ++ x ++ y ++ 0x0#4) = .ok (.seReg x y)
        ∧ ∃ t, exec (.seReg x y) s = .next t
          ∧ t.pc = (if s.getV x = s.getV y then s.pc + 4 else s.pc + 2) ∧ FrameBut [.pc] s t)
      ∧ (decode (0x9#4 ++ x ++ y ++ 0x0#4) = .ok (.sneReg x y)
        ∧ ∃ t, exec (.sneReg x y) s = .next t
          ∧ t.pc = (if s.getV x ≠ s.getV y then s.pc + 4 else s.pc + 2) ∧ FrameBut [.pc] s t)

/-- `Bnnn` (R107): the offset register by the mode. That the sum is neither wrapped nor masked is the spec's decision D4. -/
def Obligations.JpV0AddsModeOffset : Prop :=
  ∀ (nnn : Addr) (x : Reg) (s : State),
    decode (0xB#4 ++ nnn) = .ok (.jpV0 nnn (nnn.extractLsb' 8 4))
      ∧ ∃ t, exec (.jpV0 nnn x) s = .next t
        ∧ t.pc.toNat = nnn.toNat
            + (if s.compat = .legacy then (s.getV 0x0#4).toNat else (s.getV x).toNat)
        ∧ FrameBut [.pc] s t

/-! ### Index register and memory (43_index_memory.md) -/

/-- `Annn` (R125). -/
def Obligations.LdISetsIndex : Prop :=
  ∀ (nnn : Addr) (s : State),
    decode (0xA#4 ++ nnn) = .ok (.ldI nnn)
      ∧ ∃ t, exec (.ldI nnn) s = .next t ∧ t.i.toNat = nnn.toNat ∧ t.pc = s.pc + 2
        ∧ FrameBut [.i, .pc] s t

/-- `Fx1E` (R126): the exact sum, a fault only when it does not fit 16 bits, no flag: the spec's decision D4. -/
def Obligations.AddISumsOrFaults : Prop :=
  ∀ (x : Reg) (s : State),
    decode (0xF#4 ++ x ++ 0x1E#8) = .ok (.addI x)
      ∧ (s.i.toNat + (s.getV x).toNat ≤ 0xFFFF →
          ∃ t, exec (.addI x) s = .next t ∧ t.i.toNat = s.i.toNat + (s.getV x).toNat
            ∧ t.pc = s.pc + 2 ∧ FrameBut [.i, .pc] s t)
      ∧ (0xFFFF < s.i.toNat + (s.getV x).toNat →
          ∃ t, exec (.addI x) s = .next t
            ∧ HaltsWith .outOfBoundsAddress (0xF#4 ++ x ++ 0x1E#8) s t)

/-- `Fx29` (R127): the low 4 bits select the digit (the spec's decision D12); `FONT_BASE` is the model's parameter, whatever it is (log entry 2). -/
def Obligations.LdFSetsFontAddress : Prop :=
  ∀ (x : Reg) (s : State),
    decode (0xF#4 ++ x ++ 0x29#8) = .ok (.ldF x)
      ∧ ∃ t, exec (.ldF x) s = .next t
        ∧ t.i.toNat = Config.fontBase.val + 5 * ((s.getV x).toNat % 16) ∧ t.pc = s.pc + 2
        ∧ FrameBut [.i, .pc] s t

/-- `Fx33` (R128): three digits, the hundreds lowest; nothing stored when a byte is out of bounds. -/
def Obligations.LdBStoresDecimalDigits : Prop :=
  ∀ (x : Reg) (s : State),
    decode (0xF#4 ++ x ++ 0x33#8) = .ok (.ldB x)
      ∧ (s.i.toNat + 2 ≤ 0xFFF →
          ∃ t, exec (.ldB x) s = .next t
            ∧ (t.readByte s.i.toNat).toNat = (s.getV x).toNat / 100
            ∧ (t.readByte (s.i.toNat + 1)).toNat = (s.getV x).toNat / 10 % 10
            ∧ (t.readByte (s.i.toNat + 2)).toNat = (s.getV x).toNat % 10
            ∧ t.pc = s.pc + 2
            ∧ FrameBut [.byte s.i.toNat, .byte (s.i.toNat + 1), .byte (s.i.toNat + 2), .pc] s t)
      ∧ (0xFFF < s.i.toNat + 2 →
          ∃ t, exec (.ldB x) s = .next t
            ∧ HaltsWith .outOfBoundsAddress (0xF#4 ++ x ++ 0x33#8) s t)

/-- `Fx55` (R129): `V[0]` to `V[x]` at the old `I`; `I` moves in Legacy mode only, unwrapped (the spec's decision D4); nothing stored when a byte is out of bounds. -/
def Obligations.StoreRegsStoresRange : Prop :=
  ∀ (x : Reg) (s : State),
    decode (0xF#4 ++ x ++ 0x55#8) = .ok (.storeRegs x)
      ∧ (s.i.toNat + x.toNat ≤ 0xFFF →
          ∃ t, exec (.storeRegs x) s = .next t
            ∧ (∀ r : Reg, r.toNat ≤ x.toNat → t.readByte (s.i.toNat + r.toNat) = s.getV r)
            ∧ t.i.toNat = (if s.compat = .legacy then s.i.toNat + x.toNat + 1 else s.i.toNat)
            ∧ t.pc = s.pc + 2
            ∧ Frame (fun p => p = .i ∨ p = .pc
                ∨ ∃ a, s.i.toNat ≤ a ∧ a ≤ s.i.toNat + x.toNat ∧ p = .byte a) s t)
      ∧ (0xFFF < s.i.toNat + x.toNat →
          ∃ t, exec (.storeRegs x) s = .next t
            ∧ HaltsWith .outOfBoundsAddress (0xF#4 ++ x ++ 0x55#8) s t)

/-- `Fx65` (R130): the mirror image, every byte of memory unchanged. -/
def Obligations.LoadRegsLoadsRange : Prop :=
  ∀ (x : Reg) (s : State),
    decode (0xF#4 ++ x ++ 0x65#8) = .ok (.loadRegs x)
      ∧ (s.i.toNat + x.toNat ≤ 0xFFF →
          ∃ t, exec (.loadRegs x) s = .next t
            ∧ (∀ r : Reg, r.toNat ≤ x.toNat → t.getV r = s.readByte (s.i.toNat + r.toNat))
            ∧ t.i.toNat = (if s.compat = .legacy then s.i.toNat + x.toNat + 1 else s.i.toNat)
            ∧ t.pc = s.pc + 2
            ∧ Frame (fun p => p = .i ∨ p = .pc
                ∨ ∃ r : Reg, r.toNat ≤ x.toNat ∧ p = .v r) s t)
      ∧ (0xFFF < s.i.toNat + x.toNat →
          ∃ t, exec (.loadRegs x) s = .next t
            ∧ HaltsWith .outOfBoundsAddress (0xF#4 ++ x ++ 0x65#8) s t)

/-- Bytes stored by `Fx55` come back by `Fx65` from the same `I`, in either mode, into whatever the registers hold by then (R129, R130). -/
def Obligations.LoadRegsReturnsStored : Prop :=
  ∀ (x : Reg) (s : State), s.i.toNat + x.toNat ≤ 0xFFF →
    ∃ t, exec (.storeRegs x) s = .next t
      ∧ ∀ u : State, (∀ a, u.readByte a = t.readByte a) → u.i = s.i →
          ∃ v, exec (.loadRegs x) u = .next v
            ∧ ∀ r : Reg, v.getV r = if r.toNat ≤ x.toNat then s.getV r else u.getV r

/-- The three digits `Fx33` stores, loaded by `F265`, have the register's value (R128, R130). -/
def Obligations.DecimalDigitsHaveTheValue : Prop :=
  ∀ (x : Reg) (s : State), s.i.toNat + 2 ≤ 0xFFF →
    ∃ t u, exec (.ldB x) s = .next t ∧ exec (.loadRegs 2#4) t = .next u
      ∧ 100 * (u.getV 0#4).toNat + 10 * (u.getV 1#4).toNat + (u.getV 2#4).toNat = (s.getV x).toNat
      ∧ (u.getV 0#4).toNat ≤ 2 ∧ (u.getV 1#4).toNat ≤ 9 ∧ (u.getV 2#4).toNat ≤ 9

/-- The very next fetch sees the bytes `Fx55` stored: self-modifying code needs nothing (20_memory.md R60). -/
def Obligations.FetchSeesTheStore : Prop :=
  ∀ (x r : Reg) (s : State), s.i.toNat + x.toNat ≤ 0xFFF → r.toNat + 1 ≤ x.toNat →
    (s.pc + 2).toNat = s.i.toNat + r.toNat →
    ∃ t, exec (.storeRegs x) s = .next t ∧ t.fetch? = some (s.getV r ++ s.getV (r + 1))

/-! ### Display (44_display.md) -/

/-- `00E0` (R135). -/
def Obligations.ClsClearsDisplay : Prop :=
  decode 0x00E0#16 = .ok .cls
    ∧ ∀ s : State, ∃ t, exec .cls s = .next t ∧ (∀ y x, t.fb.pixel y x = false)
      ∧ t.pc = s.pc + 2 ∧ Frame (fun p => p = .pc ∨ ∃ y x, p = .pixel y x) s t

/-- `Dxyn` (R136): sprite row `r`, column `c` goes by XOR to pixel `((V[x]+c) mod 64, (V[y]+r) mod 32)`, no other pixel changes, `VF` says whether a sprite bit met a lit pixel; nothing is drawn when a sprite byte is out of bounds. -/
def Obligations.DrwDrawsSprite : Prop :=
  ∀ (x y : Reg) (n : Nibble) (s : State),
    decode (0xD#4 ++ x ++ y ++ n) = .ok (.drw x y n)
      ∧ ((n.toNat = 0 ∨ s.i.toNat + n.toNat - 1 ≤ 0xFFF) →
          ∃ t, exec (.drw x y n) s = .next t
            ∧ (∀ r c : Nat, r < n.toNat → c < 8 →
                t.fb.pixel (Fin.ofNat 32 ((s.getV y).toNat + r)) (Fin.ofNat 64 ((s.getV x).toNat + c))
                  = (s.fb.pixel (Fin.ofNat 32 ((s.getV y).toNat + r))
                      (Fin.ofNat 64 ((s.getV x).toNat + c))
                    ^^ (s.readByte (s.i.toNat + r)).getLsbD (7 - c)))
            ∧ (∀ py px, (∀ r c : Nat, r < n.toNat → c < 8 →
                  ¬ (py = Fin.ofNat 32 ((s.getV y).toNat + r)
                    ∧ px = Fin.ofNat 64 ((s.getV x).toNat + c))) →
                t.fb.pixel py px = s.fb.pixel py px)
            ∧ (t.getV 0xF#4 = 1#8 ∨ t.getV 0xF#4 = 0#8)
            ∧ (t.getV 0xF#4 = 1#8 ↔ ∃ r c : Nat, r < n.toNat ∧ c < 8
                ∧ (s.readByte (s.i.toNat + r)).getLsbD (7 - c) = true
                ∧ s.fb.pixel (Fin.ofNat 32 ((s.getV y).toNat + r))
                    (Fin.ofNat 64 ((s.getV x).toNat + c)) = true)
            ∧ t.pc = s.pc + 2
            ∧ Frame (fun p => p = .v 0xF#4 ∨ p = .pc ∨ ∃ py px, p = .pixel py px) s t)
      ∧ (1 ≤ n.toNat → 0xFFF < s.i.toNat + n.toNat - 1 →
          ∃ t, exec (.drw x y n) s = .next t
            ∧ HaltsWith .outOfBoundsAddress (0xD#4 ++ x ++ y ++ n) s t)

/-- The same sprite drawn twice restores the display, and the second draw reports a collision exactly when some sprite bit had an unlit pixel under it before the first (R136). -/
def Obligations.DrawingTwiceRestoresDisplay : Prop :=
  ∀ (x y : Reg) (n : Nibble) (s : State), x ≠ 0xF#4 → y ≠ 0xF#4 →
    (n.toNat = 0 ∨ s.i.toNat + n.toNat - 1 ≤ 0xFFF) →
    ∃ t u, exec (.drw x y n) s = .next t ∧ exec (.drw x y n) t = .next u
      ∧ (∀ py px, u.fb.pixel py px = s.fb.pixel py px)
      ∧ (u.getV 0xF#4 = 1#8 ↔ ∃ r c : Nat, r < n.toNat ∧ c < 8
          ∧ (s.readByte (s.i.toNat + r)).getLsbD (7 - c) = true
          ∧ s.fb.pixel (Fin.ofNat 32 ((s.getV y).toNat + r))
              (Fin.ofNat 64 ((s.getV x).toNat + c)) = false)

/-! ### Keypad and timers (45_keypad_timers.md) -/

/-- `Ex9E` and `ExA1` (R140, R141), the key number being the low 4 bits of the register (R146, the spec's decision D12). -/
def Obligations.SkipsOnKeyLevel : Prop :=
  ∀ (x k : Reg) (s : State), k.toNat = (s.getV x).toNat % 16 →
    (decode (0xE#4 ++ x ++ 0x9E#8) = .ok (.skp x)
        ∧ ∃ t, exec (.skp x) s = .next t
          ∧ t.pc = (if s.keyDown k = true then s.pc + 4 else s.pc + 2) ∧ FrameBut [.pc] s t)
      ∧ (decode (0xE#4 ++ x ++ 0xA1#8) = .ok (.sknp x)
        ∧ ∃ t, exec (.sknp x) s = .next t
          ∧ t.pc = (if s.keyDown k = false then s.pc + 4 else s.pc + 2) ∧ FrameBut [.pc] s t)

/-- `Fx07` (R142). -/
def Obligations.LdVxDtReadsDelayTimer : Prop :=
  ∀ (x : Reg) (s : State),
    decode (0xF#4 ++ x ++ 0x07#8) = .ok (.ldVxDt x)
      ∧ ∃ t, exec (.ldVxDt x) s = .next t ∧ t.getV x = s.dt ∧ t.pc = s.pc + 2
        ∧ FrameBut [.v x, .pc] s t

/-- `Fx0A` (R143): with a key down it completes in its step with the least key; with none down the machine waits, `PC` unchanged. The least key and the level test are the spec's decision D13. -/
def Obligations.KeyWaitTakesKeyOrSuspends : Prop :=
  ∀ (x : Reg) (s : State),
    decode (0xF#4 ++ x ++ 0x0A#8) = .ok (.ldVxK x)
      ∧ (∀ k : Reg, s.keyDown k = true → (∀ j : Reg, j.toNat < k.toNat → s.keyDown j = false) →
          ∃ t, exec (.ldVxK x) s = .next t ∧ t.getV x = k.setWidth 8 ∧ t.pc = s.pc + 2
            ∧ t.run = .running ∧ FrameBut [.v x, .pc, .run] s t)
      ∧ ((∀ k : Reg, s.keyDown k = false) →
          ∃ t, exec (.ldVxK x) s = .next t ∧ t.run = .waitingForKey ∧ t.waitReg = x
            ∧ FrameBut [.run, .waitReg] s t)

/-- `Fx15` and `Fx18` (R144, R145); the tone is on from the end of the step while `ST` lasts. -/
def Obligations.TimersAreSetFromRegister : Prop :=
  ∀ (x : Reg) (s : State),
    (decode (0xF#4 ++ x ++ 0x15#8) = .ok (.ldDtVx x)
        ∧ ∃ t, exec (.ldDtVx x) s = .next t ∧ t.dt = s.getV x ∧ t.pc = s.pc + 2
          ∧ FrameBut [.dt, .pc] s t)
      ∧ (decode (0xF#4 ++ x ++ 0x18#8) = .ok (.ldStVx x)
        ∧ ∃ t, exec (.ldStVx x) s = .next t ∧ t.st = s.getV x ∧ t.pc = s.pc + 2
          ∧ FrameBut [.st, .pc] s t ∧ (t.toneActive = true ↔ 0 < (s.getV x).toNat))

/-! ### Rules over all instructions -/

/-- Which instructions can write what: keys and mode none, `DT` and `ST` one each, stack and `SP` call and return, memory `Fx33` and `Fx55`, pixels `00E0` and `Dxyn`, `I` five (10_state.md R23 to R30, 20_memory.md R53, R64, 40_step_and_dispatch.md R99). -/
def Obligations.EachPartHasItsWriters : Prop :=
  ∀ (i : Instr) (s t : State), exec i s = .next t →
    (∀ k, t.keyDown k = s.keyDown k) ∧ t.compat = s.compat
      ∧ ((∀ x, i ≠ .ldDtVx x) → t.dt = s.dt)
      ∧ ((∀ x, i ≠ .ldStVx x) → t.st = s.st)
      ∧ ((∀ nnn, i ≠ .call nnn) → t.stack = s.stack)
      ∧ ((∀ nnn, i ≠ .call nnn) → i ≠ .ret → t.sp = s.sp)
      ∧ ((∀ x, i ≠ .ldB x) → (∀ x, i ≠ .storeRegs x) → ∀ a, t.readByte a = s.readByte a)
      ∧ (i ≠ .cls → (∀ x y n, i ≠ .drw x y n) → ∀ y x, t.fb.pixel y x = s.fb.pixel y x)
      ∧ ((∀ nnn, i ≠ .ldI nnn) → (∀ x, i ≠ .addI x) → (∀ x, i ≠ .ldF x) →
          ((∀ x, i ≠ .storeRegs x) ∧ (∀ x, i ≠ .loadRegs x) ∨ s.compat = .modern) → t.i = s.i)

/-- A register is written only by an instruction that names it as destination, and `VF` besides by the six that write a flag, as `0x00` or `0x01` (10_state.md R20, R21). -/
def Obligations.RegistersWrittenOnlyByDestination : Prop :=
  ∀ (i : Instr) (s t : State), exec i s = .next t →
    (∀ r, writesV i r = false → t.getV r = s.getV r)
      ∧ (∀ x y, (i = .addReg x y ∨ i = .subReg x y ∨ i = .shr x y ∨ i = .subn x y ∨ i = .shl x y
            ∨ (∃ n, i = .drw x y n ∧ instrFault i s = none)) →
          t.getV 0xF#4 = 0x00#8 ∨ t.getV 0xF#4 = 0x01#8)

/-- The mode is consulted by five instructions only: every other one does the same under both values (30_encoding.md R81, 00_scope.md R9). -/
def Obligations.ModeMattersToFiveInstructions : Prop :=
  ∀ (i : Instr) (s : State) (c : Compat), readsCompat i = false →
    ∃ t, exec i s = .next t ∧ exec i { s with compat := c } = .next { t with compat := c }

/-- Where `PC` goes: a faulting instruction leaves it; one that is no jump, call, return or key wait moves it by 2, a skip by 2 or 4 (R94). -/
def Obligations.PcMovesByClass : Prop :=
  ∀ (i : Instr) (s t : State), exec i s = .next t →
    (instrFault i s ≠ none → t.pc = s.pc)
      ∧ (instrFault i s = none → i ≠ .ret → (∀ a, i ≠ .jp a) → (∀ a, i ≠ .call a) →
          (∀ a x, i ≠ .jpV0 a x) → (∀ x, i ≠ .ldVxK x) →
          t.pc = s.pc + 2
            ∨ (t.pc = s.pc + 4 ∧ ((∃ x kk, i = .seImm x kk ∨ i = .sneImm x kk)
                ∨ (∃ x y, i = .seReg x y ∨ i = .sneReg x y) ∨ ∃ x, i = .skp x ∨ i = .sknp x)))
      ∧ (∀ x, i = .ldVxK x → t.pc = s.pc + 2 ∨ (t.pc = s.pc ∧ t.run = .waitingForKey))

/-- A step never writes the keys, the mode or, but by `Fx15` and `Fx18`, a timer: it never counts one down (R99). -/
def Obligations.StepNeverWritesKeysModeTimers : Prop :=
  ∀ s t : State, step s = .next t →
    (∀ k, t.keyDown k = s.keyDown k) ∧ t.compat = s.compat
      ∧ (t.dt = s.dt ∨ ∃ x, s.run = .running ∧ decode s.wordAtPc = .ok (.ldDtVx x) ∧ t.dt = s.getV x)
      ∧ (t.st = s.st ∨ ∃ x, s.run = .running ∧ decode s.wordAtPc = .ok (.ldStVx x) ∧ t.st = s.getV x)

/-- A return undoes the matching call: it comes back to the word after it with the stack as deep as before (R100, R102). -/
def Obligations.RetReturnsAfterCall : Prop :=
  ∀ (nnn : Addr) (s : State), s.sp.val < 16 →
    ∃ t, exec (.call nnn) s = .next t
      ∧ ∀ u : State, u.stack = t.stack → u.sp = t.sp →
          ∃ r, exec .ret u = .next r ∧ r.pc = s.pc + 2 ∧ r.sp = s.sp

/-! ### The host's events (10_state.md, 60_exceptions.md, 70_reset_and_hazards.md) -/

/-- `TimerPulse` (R165): both timers down by one, floored at 0, unless halted (D19 says why). -/
def Obligations.TimerPulseCountsDown : Prop :=
  ∀ s : State,
    (s.run = .halted → deliver .timerPulse s = .next s)
      ∧ (s.run ≠ .halted → ∃ t, deliver .timerPulse s = .next t
          ∧ t.dt.toNat = s.dt.toNat - 1 ∧ t.st.toNat = s.st.toNat - 1 ∧ FrameBut [.dt, .st] s t)

/-- After `n` pulses the timers are down by `n`, never below 0, and the tone is on as long as `ST` lasts (R165, R167, R46). -/
def Obligations.PulsesRunTimersDown : Prop :=
  ∀ (n : Nat) (s : State), s.run ≠ .halted →
    ∃ t, Vm.deliverAll (List.replicate n .timerPulse) (.started s) = .next (.started t)
      ∧ t.dt.toNat = s.dt.toNat - n ∧ t.st.toNat = s.st.toNat - n
      ∧ (t.toneActive = true ↔ n < s.st.toNat) ∧ FrameBut [.dt, .st] s t

/-- `SetKeys` (R42). -/
def Obligations.SetKeysWritesKeysOnly : Prop :=
  ∀ (k : BitVec 16) (s : State), ∃ t, deliver (.setKeys k) s = .next t
    ∧ (∀ j : Reg, t.keyDown j = k.getLsbD j.toNat) ∧ Frame (fun p => ∃ j, p = .key j) s t

/-- `Reset` (R180, R182): a program that fits stands at `0x200`, the font at `FONT_BASE`, zero elsewhere, and the rest is at its reset value; a longer one is refused. The zero bytes, the display, the keys, `WAIT_REG` and the record rest on the spec's decision D16, the font's place and bytes on log entries 2 and 3. -/
def Obligations.ResetLoadsProgramOrRefuses : Prop :=
  ∀ (program : List Byte) (c : Compat) (s : State),
    (program.length ≤ 3584 → ∃ t, deliver (.reset program c) s = .next t
        ∧ (∀ (k : Nat) (h : k < program.length), t.readByte (0x200 + k) = program[k])
        ∧ (∀ (k : Nat) (h : k < fontData.length), t.readByte (Config.fontBase.val + k) = fontData[k])
        ∧ (∀ a, a < 4096 → a < Config.fontBase.val ∨ Config.fontBase.val + 80 ≤ a →
            a < 0x200 ∨ 0x200 + program.length ≤ a → t.readByte a = 0x00#8)
        ∧ (∀ r, t.getV r = 0x00#8) ∧ t.i = 0x0000#16 ∧ t.pc = 0x0200#16 ∧ t.sp.val = 0
        ∧ (∀ k : Fin 16, t.stack[k.val] = 0x0000#16) ∧ t.dt = 0x00#8 ∧ t.st = 0x00#8
        ∧ (∀ y x, t.fb.pixel y x = false) ∧ (∀ k, t.keyDown k = false) ∧ t.compat = c
        ∧ t.run = .running ∧ t.waitReg = 0x0#4 ∧ t.faultKind = .none
        ∧ t.faultWord = 0x0000#16 ∧ t.faultAddr = 0x0000#16)
      ∧ (3584 < program.length → deliver (.reset program c) s = .fault .programTooLarge)

/-- A refused load (R156, R182): the machine, whatever it was, is not started and the load interface reports ProgramTooLarge; no event but `Reset` is accepted or changes anything; and another `Reset` with a program that fits starts it, running, with the program's bytes unchanged and a clean record. That an event which is not accepted changes nothing is log entry 22. -/
def Obligations.RefusedLoadAwaitsReset : Prop :=
  ∀ (program : List Byte) (c : Compat) (m : Vm), 3584 < program.length →
    ∃ m' : Vm, m.deliver (.reset program c) = .next m'
      ∧ (∀ s : State, m' ≠ .started s) ∧ m'.loadReport = .programTooLarge
      ∧ (∀ e : Event, (∀ p d, e ≠ .reset p d) → m'.accepts e = false ∧ m'.deliver e = .next m')
      ∧ ∀ (again : List Byte) (d : Compat), again.length ≤ 3584 →
          ∃ t : State, m'.deliver (.reset again d) = .next (.started t)
            ∧ (∀ (k : Nat) (h : k < again.length), t.readByte (0x200 + k) = again[k])
            ∧ t.pc = 0x0200#16 ∧ t.compat = d ∧ t.run = .running ∧ t.faultKind = .none
            ∧ t.faultWord = 0x0000#16 ∧ t.faultAddr = 0x0000#16

/-- The reference schedule (R8, R195, the spec's decision D20): at startup the accumulator is 0 and `IPS` is as given, 700 where none is; a tick makes one step and then the pulses due on the accumulator, none in Halted, and keeps `IPS`. -/
def Obligations.ScheduleCountsPulses : Prop :=
  (∀ (program : List Byte) (c : Compat) (m : Vm) (ips : Nat), program.length ≤ 3584 →
      ∃ t : State, m.deliver (.reset program c) = .next (.started t)
        ∧ Scheduled.reset program c m ips = .next { vm := .started t, acc := 0, ips := ips }
        ∧ Scheduled.reset program c m = .next { vm := .started t, acc := 0, ips := 700 })
    ∧ ∀ (keys : Option (BitVec 16)) (h : Scheduled) (s t : State) (k : Nat), 1 ≤ h.ips →
        h.vm = .started s → step (s.setKeysIf keys) = .next t →
        k = (if t.run = .halted then 0 else (h.acc + 60) / h.ips) →
        Scheduled.tick keys h = .next
          { vm := .started (State.timerPulses k t), acc := h.acc + 60 - k * h.ips, ips := h.ips }

/-- What `State.reset` holds (R36, R180): the values the source itself states, and memory with nothing listed. -/
def Obligations.ResetStateValues : Prop :=
  (∀ r, State.reset.getV r = 0x00#8) ∧ State.reset.i = 0x0000#16 ∧ State.reset.pc = 0x0200#16
    ∧ State.reset.sp.val = 0 ∧ (∀ k : Fin 16, State.reset.stack[k.val] = 0x0000#16)
    ∧ State.reset.dt = 0x00#8 ∧ State.reset.st = 0x00#8 ∧ State.reset.run = .running
    ∧ State.reset.mem = []

/-- The display port (R45): pixel `(x, y)` is bit `64*y + x` of the linear snapshot, the spec's decision D18. -/
def Obligations.DisplayPortIsLinear : Prop :=
  ∀ (s : State) (y : Fin 32) (x : Fin 64),
    s.displayPort[64 * y.val + x.val]? = some (s.fb.pixel y x)

/-! ### The invariant -/

/-- The invariant holds at reset. -/
def Obligations.ResetMeetsInvariant : Prop := Inv State.reset

/-- Every step keeps the invariant: memory's canonical form, the bounds of `PC` and of the return addresses, the fault record's form, and the word at `PC` of a waiting machine (R22, R31 to R33, R92, R100, R155). -/
def Obligations.StepKeepsInvariant : Prop :=
  ∀ s t : State, Inv s → step s = .next t → Inv t

/-- Every state that the host's events reach, refused loads among them, meets the invariant (R18). -/
def Obligations.ReachableMeetsInvariant : Prop :=
  ∀ s : State, Reachable (.started s) → Inv s
end

