-- ==== Sys2Proof/Laws/State.lean ====
section
/-! SUPPORT. One lemma per field per update of the state: what the update writes, and that it leaves every other field as it was. -/

namespace Sys2Proof.Machine

variable (s : State)

/-! ### `setV` -/

@[simp] theorem State.setV_v (r : Reg) (b : Byte) : (s.setV r b).v = s.v.set r.toNat b r.isLt := rfl
@[simp] theorem State.setV_i (r : Reg) (b : Byte) : (s.setV r b).i = s.i := rfl
@[simp] theorem State.setV_pc (r : Reg) (b : Byte) : (s.setV r b).pc = s.pc := rfl
@[simp] theorem State.setV_stack (r : Reg) (b : Byte) : (s.setV r b).stack = s.stack := rfl
@[simp] theorem State.setV_sp (r : Reg) (b : Byte) : (s.setV r b).sp = s.sp := rfl
@[simp] theorem State.setV_dt (r : Reg) (b : Byte) : (s.setV r b).dt = s.dt := rfl
@[simp] theorem State.setV_st (r : Reg) (b : Byte) : (s.setV r b).st = s.st := rfl
@[simp] theorem State.setV_mem (r : Reg) (b : Byte) : (s.setV r b).mem = s.mem := rfl
@[simp] theorem State.setV_fb (r : Reg) (b : Byte) : (s.setV r b).fb = s.fb := rfl
@[simp] theorem State.setV_keys (r : Reg) (b : Byte) : (s.setV r b).keys = s.keys := rfl
@[simp] theorem State.setV_compat (r : Reg) (b : Byte) : (s.setV r b).compat = s.compat := rfl
@[simp] theorem State.setV_run (r : Reg) (b : Byte) : (s.setV r b).run = s.run := rfl
@[simp] theorem State.setV_waitReg (r : Reg) (b : Byte) : (s.setV r b).waitReg = s.waitReg := rfl
@[simp] theorem State.setV_faultKind (r : Reg) (b : Byte) : (s.setV r b).faultKind = s.faultKind := rfl
@[simp] theorem State.setV_faultWord (r : Reg) (b : Byte) : (s.setV r b).faultWord = s.faultWord := rfl
@[simp] theorem State.setV_faultAddr (r : Reg) (b : Byte) : (s.setV r b).faultAddr = s.faultAddr := rfl
@[simp] theorem State.setV_rndIndex (r : Reg) (b : Byte) : (s.setV r b).rndIndex = s.rndIndex := rfl
@[simp] theorem State.setV_readByte (r : Reg) (b : Byte) (a : Nat) : (s.setV r b).readByte a = s.readByte a := rfl
@[simp] theorem State.setV_keyDown (r : Reg) (b : Byte) (k : Reg) : (s.setV r b).keyDown k = s.keyDown k := rfl
@[simp] theorem State.setV_index (r : Reg) (b : Byte) : (s.setV r b).index = s.index := rfl

/-! ### `setVUpTo` -/

@[simp] theorem State.setVUpTo_i (r : Reg) (f : Nat → Byte) : (s.setVUpTo r f).i = s.i := rfl
@[simp] theorem State.setVUpTo_pc (r : Reg) (f : Nat → Byte) : (s.setVUpTo r f).pc = s.pc := rfl
@[simp] theorem State.setVUpTo_stack (r : Reg) (f : Nat → Byte) : (s.setVUpTo r f).stack = s.stack := rfl
@[simp] theorem State.setVUpTo_sp (r : Reg) (f : Nat → Byte) : (s.setVUpTo r f).sp = s.sp := rfl
@[simp] theorem State.setVUpTo_dt (r : Reg) (f : Nat → Byte) : (s.setVUpTo r f).dt = s.dt := rfl
@[simp] theorem State.setVUpTo_st (r : Reg) (f : Nat → Byte) : (s.setVUpTo r f).st = s.st := rfl
@[simp] theorem State.setVUpTo_mem (r : Reg) (f : Nat → Byte) : (s.setVUpTo r f).mem = s.mem := rfl
@[simp] theorem State.setVUpTo_fb (r : Reg) (f : Nat → Byte) : (s.setVUpTo r f).fb = s.fb := rfl
@[simp] theorem State.setVUpTo_keys (r : Reg) (f : Nat → Byte) : (s.setVUpTo r f).keys = s.keys := rfl
@[simp] theorem State.setVUpTo_compat (r : Reg) (f : Nat → Byte) : (s.setVUpTo r f).compat = s.compat := rfl
@[simp] theorem State.setVUpTo_run (r : Reg) (f : Nat → Byte) : (s.setVUpTo r f).run = s.run := rfl
@[simp] theorem State.setVUpTo_waitReg (r : Reg) (f : Nat → Byte) : (s.setVUpTo r f).waitReg = s.waitReg := rfl
@[simp] theorem State.setVUpTo_faultKind (r : Reg) (f : Nat → Byte) : (s.setVUpTo r f).faultKind = s.faultKind := rfl
@[simp] theorem State.setVUpTo_faultWord (r : Reg) (f : Nat → Byte) : (s.setVUpTo r f).faultWord = s.faultWord := rfl
@[simp] theorem State.setVUpTo_faultAddr (r : Reg) (f : Nat → Byte) : (s.setVUpTo r f).faultAddr = s.faultAddr := rfl
@[simp] theorem State.setVUpTo_rndIndex (r : Reg) (f : Nat → Byte) : (s.setVUpTo r f).rndIndex = s.rndIndex := rfl
@[simp] theorem State.setVUpTo_readByte (r : Reg) (f : Nat → Byte) (a : Nat) : (s.setVUpTo r f).readByte a = s.readByte a := rfl
@[simp] theorem State.setVUpTo_keyDown (r : Reg) (f : Nat → Byte) (k : Reg) : (s.setVUpTo r f).keyDown k = s.keyDown k := rfl
@[simp] theorem State.setVUpTo_index (r : Reg) (f : Nat → Byte) : (s.setVUpTo r f).index = s.index := rfl

/-! ### `setFlagged` -/

@[simp] theorem State.setFlagged_i (r : Reg) (c : Flagged) : (s.setFlagged r c).i = s.i := rfl
@[simp] theorem State.setFlagged_pc (r : Reg) (c : Flagged) : (s.setFlagged r c).pc = s.pc := rfl
@[simp] theorem State.setFlagged_stack (r : Reg) (c : Flagged) : (s.setFlagged r c).stack = s.stack := rfl
@[simp] theorem State.setFlagged_sp (r : Reg) (c : Flagged) : (s.setFlagged r c).sp = s.sp := rfl
@[simp] theorem State.setFlagged_dt (r : Reg) (c : Flagged) : (s.setFlagged r c).dt = s.dt := rfl
@[simp] theorem State.setFlagged_st (r : Reg) (c : Flagged) : (s.setFlagged r c).st = s.st := rfl
@[simp] theorem State.setFlagged_mem (r : Reg) (c : Flagged) : (s.setFlagged r c).mem = s.mem := rfl
@[simp] theorem State.setFlagged_fb (r : Reg) (c : Flagged) : (s.setFlagged r c).fb = s.fb := rfl
@[simp] theorem State.setFlagged_keys (r : Reg) (c : Flagged) : (s.setFlagged r c).keys = s.keys := rfl
@[simp] theorem State.setFlagged_compat (r : Reg) (c : Flagged) : (s.setFlagged r c).compat = s.compat := rfl
@[simp] theorem State.setFlagged_run (r : Reg) (c : Flagged) : (s.setFlagged r c).run = s.run := rfl
@[simp] theorem State.setFlagged_waitReg (r : Reg) (c : Flagged) : (s.setFlagged r c).waitReg = s.waitReg := rfl
@[simp] theorem State.setFlagged_faultKind (r : Reg) (c : Flagged) : (s.setFlagged r c).faultKind = s.faultKind := rfl
@[simp] theorem State.setFlagged_faultWord (r : Reg) (c : Flagged) : (s.setFlagged r c).faultWord = s.faultWord := rfl
@[simp] theorem State.setFlagged_faultAddr (r : Reg) (c : Flagged) : (s.setFlagged r c).faultAddr = s.faultAddr := rfl
@[simp] theorem State.setFlagged_rndIndex (r : Reg) (c : Flagged) : (s.setFlagged r c).rndIndex = s.rndIndex := rfl
@[simp] theorem State.setFlagged_readByte (r : Reg) (c : Flagged) (a : Nat) : (s.setFlagged r c).readByte a = s.readByte a := rfl
@[simp] theorem State.setFlagged_keyDown (r : Reg) (c : Flagged) (k : Reg) : (s.setFlagged r c).keyDown k = s.keyDown k := rfl
@[simp] theorem State.setFlagged_index (r : Reg) (c : Flagged) : (s.setFlagged r c).index = s.index := rfl

/-! ### `setI` -/

@[simp] theorem State.setI_v (w : Word) : (s.setI w).v = s.v := rfl
@[simp] theorem State.setI_i (w : Word) : (s.setI w).i = w := rfl
@[simp] theorem State.setI_pc (w : Word) : (s.setI w).pc = s.pc := rfl
@[simp] theorem State.setI_stack (w : Word) : (s.setI w).stack = s.stack := rfl
@[simp] theorem State.setI_sp (w : Word) : (s.setI w).sp = s.sp := rfl
@[simp] theorem State.setI_dt (w : Word) : (s.setI w).dt = s.dt := rfl
@[simp] theorem State.setI_st (w : Word) : (s.setI w).st = s.st := rfl
@[simp] theorem State.setI_mem (w : Word) : (s.setI w).mem = s.mem := rfl
@[simp] theorem State.setI_fb (w : Word) : (s.setI w).fb = s.fb := rfl
@[simp] theorem State.setI_keys (w : Word) : (s.setI w).keys = s.keys := rfl
@[simp] theorem State.setI_compat (w : Word) : (s.setI w).compat = s.compat := rfl
@[simp] theorem State.setI_run (w : Word) : (s.setI w).run = s.run := rfl
@[simp] theorem State.setI_waitReg (w : Word) : (s.setI w).waitReg = s.waitReg := rfl
@[simp] theorem State.setI_faultKind (w : Word) : (s.setI w).faultKind = s.faultKind := rfl
@[simp] theorem State.setI_faultWord (w : Word) : (s.setI w).faultWord = s.faultWord := rfl
@[simp] theorem State.setI_faultAddr (w : Word) : (s.setI w).faultAddr = s.faultAddr := rfl
@[simp] theorem State.setI_rndIndex (w : Word) : (s.setI w).rndIndex = s.rndIndex := rfl
@[simp] theorem State.setI_getV (w : Word) (x : Reg) : (s.setI w).getV x = s.getV x := rfl
@[simp] theorem State.setI_readByte (w : Word) (a : Nat) : (s.setI w).readByte a = s.readByte a := rfl
@[simp] theorem State.setI_keyDown (w : Word) (k : Reg) : (s.setI w).keyDown k = s.keyDown k := rfl

/-! ### `setPc` -/

@[simp] theorem State.setPc_v (w : Word) : (s.setPc w).v = s.v := rfl
@[simp] theorem State.setPc_i (w : Word) : (s.setPc w).i = s.i := rfl
@[simp] theorem State.setPc_pc (w : Word) : (s.setPc w).pc = w := rfl
@[simp] theorem State.setPc_stack (w : Word) : (s.setPc w).stack = s.stack := rfl
@[simp] theorem State.setPc_sp (w : Word) : (s.setPc w).sp = s.sp := rfl
@[simp] theorem State.setPc_dt (w : Word) : (s.setPc w).dt = s.dt := rfl
@[simp] theorem State.setPc_st (w : Word) : (s.setPc w).st = s.st := rfl
@[simp] theorem State.setPc_mem (w : Word) : (s.setPc w).mem = s.mem := rfl
@[simp] theorem State.setPc_fb (w : Word) : (s.setPc w).fb = s.fb := rfl
@[simp] theorem State.setPc_keys (w : Word) : (s.setPc w).keys = s.keys := rfl
@[simp] theorem State.setPc_compat (w : Word) : (s.setPc w).compat = s.compat := rfl
@[simp] theorem State.setPc_run (w : Word) : (s.setPc w).run = s.run := rfl
@[simp] theorem State.setPc_waitReg (w : Word) : (s.setPc w).waitReg = s.waitReg := rfl
@[simp] theorem State.setPc_faultKind (w : Word) : (s.setPc w).faultKind = s.faultKind := rfl
@[simp] theorem State.setPc_faultWord (w : Word) : (s.setPc w).faultWord = s.faultWord := rfl
@[simp] theorem State.setPc_faultAddr (w : Word) : (s.setPc w).faultAddr = s.faultAddr := rfl
@[simp] theorem State.setPc_rndIndex (w : Word) : (s.setPc w).rndIndex = s.rndIndex := rfl
@[simp] theorem State.setPc_getV (w : Word) (x : Reg) : (s.setPc w).getV x = s.getV x := rfl
@[simp] theorem State.setPc_readByte (w : Word) (a : Nat) : (s.setPc w).readByte a = s.readByte a := rfl
@[simp] theorem State.setPc_keyDown (w : Word) (k : Reg) : (s.setPc w).keyDown k = s.keyDown k := rfl
@[simp] theorem State.setPc_index (w : Word) : (s.setPc w).index = s.index := rfl

/-! ### `advance` -/

@[simp] theorem State.advance_v : (s.advance).v = s.v := rfl
@[simp] theorem State.advance_i : (s.advance).i = s.i := rfl
@[simp] theorem State.advance_pc : (s.advance).pc = s.pc + 2 := rfl
@[simp] theorem State.advance_stack : (s.advance).stack = s.stack := rfl
@[simp] theorem State.advance_sp : (s.advance).sp = s.sp := rfl
@[simp] theorem State.advance_dt : (s.advance).dt = s.dt := rfl
@[simp] theorem State.advance_st : (s.advance).st = s.st := rfl
@[simp] theorem State.advance_mem : (s.advance).mem = s.mem := rfl
@[simp] theorem State.advance_fb : (s.advance).fb = s.fb := rfl
@[simp] theorem State.advance_keys : (s.advance).keys = s.keys := rfl
@[simp] theorem State.advance_compat : (s.advance).compat = s.compat := rfl
@[simp] theorem State.advance_run : (s.advance).run = s.run := rfl
@[simp] theorem State.advance_waitReg : (s.advance).waitReg = s.waitReg := rfl
@[simp] theorem State.advance_faultKind : (s.advance).faultKind = s.faultKind := rfl
@[simp] theorem State.advance_faultWord : (s.advance).faultWord = s.faultWord := rfl
@[simp] theorem State.advance_faultAddr : (s.advance).faultAddr = s.faultAddr := rfl
@[simp] theorem State.advance_rndIndex : (s.advance).rndIndex = s.rndIndex := rfl
@[simp] theorem State.advance_getV (x : Reg) : (s.advance).getV x = s.getV x := rfl
@[simp] theorem State.advance_readByte (a : Nat) : (s.advance).readByte a = s.readByte a := rfl
@[simp] theorem State.advance_keyDown (k : Reg) : (s.advance).keyDown k = s.keyDown k := rfl
@[simp] theorem State.advance_index : (s.advance).index = s.index := rfl

/-! ### `skipIf` -/

@[simp] theorem State.skipIf_v (c : Bool) : (s.skipIf c).v = s.v := rfl
@[simp] theorem State.skipIf_i (c : Bool) : (s.skipIf c).i = s.i := rfl
@[simp] theorem State.skipIf_pc (c : Bool) : (s.skipIf c).pc = if c then s.pc + 4 else s.pc + 2 := rfl
@[simp] theorem State.skipIf_stack (c : Bool) : (s.skipIf c).stack = s.stack := rfl
@[simp] theorem State.skipIf_sp (c : Bool) : (s.skipIf c).sp = s.sp := rfl
@[simp] theorem State.skipIf_dt (c : Bool) : (s.skipIf c).dt = s.dt := rfl
@[simp] theorem State.skipIf_st (c : Bool) : (s.skipIf c).st = s.st := rfl
@[simp] theorem State.skipIf_mem (c : Bool) : (s.skipIf c).mem = s.mem := rfl
@[simp] theorem State.skipIf_fb (c : Bool) : (s.skipIf c).fb = s.fb := rfl
@[simp] theorem State.skipIf_keys (c : Bool) : (s.skipIf c).keys = s.keys := rfl
@[simp] theorem State.skipIf_compat (c : Bool) : (s.skipIf c).compat = s.compat := rfl
@[simp] theorem State.skipIf_run (c : Bool) : (s.skipIf c).run = s.run := rfl
@[simp] theorem State.skipIf_waitReg (c : Bool) : (s.skipIf c).waitReg = s.waitReg := rfl
@[simp] theorem State.skipIf_faultKind (c : Bool) : (s.skipIf c).faultKind = s.faultKind := rfl
@[simp] theorem State.skipIf_faultWord (c : Bool) : (s.skipIf c).faultWord = s.faultWord := rfl
@[simp] theorem State.skipIf_faultAddr (c : Bool) : (s.skipIf c).faultAddr = s.faultAddr := rfl
@[simp] theorem State.skipIf_rndIndex (c : Bool) : (s.skipIf c).rndIndex = s.rndIndex := rfl
@[simp] theorem State.skipIf_getV (c : Bool) (x : Reg) : (s.skipIf c).getV x = s.getV x := rfl
@[simp] theorem State.skipIf_readByte (c : Bool) (a : Nat) : (s.skipIf c).readByte a = s.readByte a := rfl
@[simp] theorem State.skipIf_keyDown (c : Bool) (k : Reg) : (s.skipIf c).keyDown k = s.keyDown k := rfl
@[simp] theorem State.skipIf_index (c : Bool) : (s.skipIf c).index = s.index := rfl

/-! ### `setDt` -/

@[simp] theorem State.setDt_v (b : Byte) : (s.setDt b).v = s.v := rfl
@[simp] theorem State.setDt_i (b : Byte) : (s.setDt b).i = s.i := rfl
@[simp] theorem State.setDt_pc (b : Byte) : (s.setDt b).pc = s.pc := rfl
@[simp] theorem State.setDt_stack (b : Byte) : (s.setDt b).stack = s.stack := rfl
@[simp] theorem State.setDt_sp (b : Byte) : (s.setDt b).sp = s.sp := rfl
@[simp] theorem State.setDt_dt (b : Byte) : (s.setDt b).dt = b := rfl
@[simp] theorem State.setDt_st (b : Byte) : (s.setDt b).st = s.st := rfl
@[simp] theorem State.setDt_mem (b : Byte) : (s.setDt b).mem = s.mem := rfl
@[simp] theorem State.setDt_fb (b : Byte) : (s.setDt b).fb = s.fb := rfl
@[simp] theorem State.setDt_keys (b : Byte) : (s.setDt b).keys = s.keys := rfl
@[simp] theorem State.setDt_compat (b : Byte) : (s.setDt b).compat = s.compat := rfl
@[simp] theorem State.setDt_run (b : Byte) : (s.setDt b).run = s.run := rfl
@[simp] theorem State.setDt_waitReg (b : Byte) : (s.setDt b).waitReg = s.waitReg := rfl
@[simp] theorem State.setDt_faultKind (b : Byte) : (s.setDt b).faultKind = s.faultKind := rfl
@[simp] theorem State.setDt_faultWord (b : Byte) : (s.setDt b).faultWord = s.faultWord := rfl
@[simp] theorem State.setDt_faultAddr (b : Byte) : (s.setDt b).faultAddr = s.faultAddr := rfl
@[simp] theorem State.setDt_rndIndex (b : Byte) : (s.setDt b).rndIndex = s.rndIndex := rfl
@[simp] theorem State.setDt_getV (b : Byte) (x : Reg) : (s.setDt b).getV x = s.getV x := rfl
@[simp] theorem State.setDt_readByte (b : Byte) (a : Nat) : (s.setDt b).readByte a = s.readByte a := rfl
@[simp] theorem State.setDt_keyDown (b : Byte) (k : Reg) : (s.setDt b).keyDown k = s.keyDown k := rfl
@[simp] theorem State.setDt_index (b : Byte) : (s.setDt b).index = s.index := rfl

/-! ### `setSt` -/

@[simp] theorem State.setSt_v (b : Byte) : (s.setSt b).v = s.v := rfl
@[simp] theorem State.setSt_i (b : Byte) : (s.setSt b).i = s.i := rfl
@[simp] theorem State.setSt_pc (b : Byte) : (s.setSt b).pc = s.pc := rfl
@[simp] theorem State.setSt_stack (b : Byte) : (s.setSt b).stack = s.stack := rfl
@[simp] theorem State.setSt_sp (b : Byte) : (s.setSt b).sp = s.sp := rfl
@[simp] theorem State.setSt_dt (b : Byte) : (s.setSt b).dt = s.dt := rfl
@[simp] theorem State.setSt_st (b : Byte) : (s.setSt b).st = b := rfl
@[simp] theorem State.setSt_mem (b : Byte) : (s.setSt b).mem = s.mem := rfl
@[simp] theorem State.setSt_fb (b : Byte) : (s.setSt b).fb = s.fb := rfl
@[simp] theorem State.setSt_keys (b : Byte) : (s.setSt b).keys = s.keys := rfl
@[simp] theorem State.setSt_compat (b : Byte) : (s.setSt b).compat = s.compat := rfl
@[simp] theorem State.setSt_run (b : Byte) : (s.setSt b).run = s.run := rfl
@[simp] theorem State.setSt_waitReg (b : Byte) : (s.setSt b).waitReg = s.waitReg := rfl
@[simp] theorem State.setSt_faultKind (b : Byte) : (s.setSt b).faultKind = s.faultKind := rfl
@[simp] theorem State.setSt_faultWord (b : Byte) : (s.setSt b).faultWord = s.faultWord := rfl
@[simp] theorem State.setSt_faultAddr (b : Byte) : (s.setSt b).faultAddr = s.faultAddr := rfl
@[simp] theorem State.setSt_rndIndex (b : Byte) : (s.setSt b).rndIndex = s.rndIndex := rfl
@[simp] theorem State.setSt_getV (b : Byte) (x : Reg) : (s.setSt b).getV x = s.getV x := rfl
@[simp] theorem State.setSt_readByte (b : Byte) (a : Nat) : (s.setSt b).readByte a = s.readByte a := rfl
@[simp] theorem State.setSt_keyDown (b : Byte) (k : Reg) : (s.setSt b).keyDown k = s.keyDown k := rfl
@[simp] theorem State.setSt_index (b : Byte) : (s.setSt b).index = s.index := rfl

/-! ### `setKeys` -/

@[simp] theorem State.setKeys_v (w : BitVec 16) : (s.setKeys w).v = s.v := rfl
@[simp] theorem State.setKeys_i (w : BitVec 16) : (s.setKeys w).i = s.i := rfl
@[simp] theorem State.setKeys_pc (w : BitVec 16) : (s.setKeys w).pc = s.pc := rfl
@[simp] theorem State.setKeys_stack (w : BitVec 16) : (s.setKeys w).stack = s.stack := rfl
@[simp] theorem State.setKeys_sp (w : BitVec 16) : (s.setKeys w).sp = s.sp := rfl
@[simp] theorem State.setKeys_dt (w : BitVec 16) : (s.setKeys w).dt = s.dt := rfl
@[simp] theorem State.setKeys_st (w : BitVec 16) : (s.setKeys w).st = s.st := rfl
@[simp] theorem State.setKeys_mem (w : BitVec 16) : (s.setKeys w).mem = s.mem := rfl
@[simp] theorem State.setKeys_fb (w : BitVec 16) : (s.setKeys w).fb = s.fb := rfl
@[simp] theorem State.setKeys_compat (w : BitVec 16) : (s.setKeys w).compat = s.compat := rfl
@[simp] theorem State.setKeys_run (w : BitVec 16) : (s.setKeys w).run = s.run := rfl
@[simp] theorem State.setKeys_waitReg (w : BitVec 16) : (s.setKeys w).waitReg = s.waitReg := rfl
@[simp] theorem State.setKeys_faultKind (w : BitVec 16) : (s.setKeys w).faultKind = s.faultKind := rfl
@[simp] theorem State.setKeys_faultWord (w : BitVec 16) : (s.setKeys w).faultWord = s.faultWord := rfl
@[simp] theorem State.setKeys_faultAddr (w : BitVec 16) : (s.setKeys w).faultAddr = s.faultAddr := rfl
@[simp] theorem State.setKeys_rndIndex (w : BitVec 16) : (s.setKeys w).rndIndex = s.rndIndex := rfl
@[simp] theorem State.setKeys_getV (w : BitVec 16) (x : Reg) : (s.setKeys w).getV x = s.getV x := rfl
@[simp] theorem State.setKeys_readByte (w : BitVec 16) (a : Nat) : (s.setKeys w).readByte a = s.readByte a := rfl
@[simp] theorem State.setKeys_index (w : BitVec 16) : (s.setKeys w).index = s.index := rfl

/-! ### `nextDraw` -/

@[simp] theorem State.nextDraw_v : (s.nextDraw).v = s.v := rfl
@[simp] theorem State.nextDraw_i : (s.nextDraw).i = s.i := rfl
@[simp] theorem State.nextDraw_pc : (s.nextDraw).pc = s.pc := rfl
@[simp] theorem State.nextDraw_stack : (s.nextDraw).stack = s.stack := rfl
@[simp] theorem State.nextDraw_sp : (s.nextDraw).sp = s.sp := rfl
@[simp] theorem State.nextDraw_dt : (s.nextDraw).dt = s.dt := rfl
@[simp] theorem State.nextDraw_st : (s.nextDraw).st = s.st := rfl
@[simp] theorem State.nextDraw_mem : (s.nextDraw).mem = s.mem := rfl
@[simp] theorem State.nextDraw_fb : (s.nextDraw).fb = s.fb := rfl
@[simp] theorem State.nextDraw_keys : (s.nextDraw).keys = s.keys := rfl
@[simp] theorem State.nextDraw_compat : (s.nextDraw).compat = s.compat := rfl
@[simp] theorem State.nextDraw_run : (s.nextDraw).run = s.run := rfl
@[simp] theorem State.nextDraw_waitReg : (s.nextDraw).waitReg = s.waitReg := rfl
@[simp] theorem State.nextDraw_faultKind : (s.nextDraw).faultKind = s.faultKind := rfl
@[simp] theorem State.nextDraw_faultWord : (s.nextDraw).faultWord = s.faultWord := rfl
@[simp] theorem State.nextDraw_faultAddr : (s.nextDraw).faultAddr = s.faultAddr := rfl
@[simp] theorem State.nextDraw_rndIndex : (s.nextDraw).rndIndex = s.rndIndex + 1 := rfl
@[simp] theorem State.nextDraw_getV (x : Reg) : (s.nextDraw).getV x = s.getV x := rfl
@[simp] theorem State.nextDraw_readByte (a : Nat) : (s.nextDraw).readByte a = s.readByte a := rfl
@[simp] theorem State.nextDraw_keyDown (k : Reg) : (s.nextDraw).keyDown k = s.keyDown k := rfl
@[simp] theorem State.nextDraw_index : (s.nextDraw).index = s.index := rfl

/-! ### `setFb` -/

@[simp] theorem State.setFb_v (d : Display) : (s.setFb d).v = s.v := rfl
@[simp] theorem State.setFb_i (d : Display) : (s.setFb d).i = s.i := rfl
@[simp] theorem State.setFb_pc (d : Display) : (s.setFb d).pc = s.pc := rfl
@[simp] theorem State.setFb_stack (d : Display) : (s.setFb d).stack = s.stack := rfl
@[simp] theorem State.setFb_sp (d : Display) : (s.setFb d).sp = s.sp := rfl
@[simp] theorem State.setFb_dt (d : Display) : (s.setFb d).dt = s.dt := rfl
@[simp] theorem State.setFb_st (d : Display) : (s.setFb d).st = s.st := rfl
@[simp] theorem State.setFb_mem (d : Display) : (s.setFb d).mem = s.mem := rfl
@[simp] theorem State.setFb_fb (d : Display) : (s.setFb d).fb = d := rfl
@[simp] theorem State.setFb_keys (d : Display) : (s.setFb d).keys = s.keys := rfl
@[simp] theorem State.setFb_compat (d : Display) : (s.setFb d).compat = s.compat := rfl
@[simp] theorem State.setFb_run (d : Display) : (s.setFb d).run = s.run := rfl
@[simp] theorem State.setFb_waitReg (d : Display) : (s.setFb d).waitReg = s.waitReg := rfl
@[simp] theorem State.setFb_faultKind (d : Display) : (s.setFb d).faultKind = s.faultKind := rfl
@[simp] theorem State.setFb_faultWord (d : Display) : (s.setFb d).faultWord = s.faultWord := rfl
@[simp] theorem State.setFb_faultAddr (d : Display) : (s.setFb d).faultAddr = s.faultAddr := rfl
@[simp] theorem State.setFb_rndIndex (d : Display) : (s.setFb d).rndIndex = s.rndIndex := rfl
@[simp] theorem State.setFb_getV (d : Display) (x : Reg) : (s.setFb d).getV x = s.getV x := rfl
@[simp] theorem State.setFb_readByte (d : Display) (a : Nat) : (s.setFb d).readByte a = s.readByte a := rfl
@[simp] theorem State.setFb_keyDown (d : Display) (k : Reg) : (s.setFb d).keyDown k = s.keyDown k := rfl
@[simp] theorem State.setFb_index (d : Display) : (s.setFb d).index = s.index := rfl

/-! ### `storeBytes` -/

@[simp] theorem State.storeBytes_v (n : Nat) (bs : List Byte) : (s.storeBytes n bs).v = s.v := rfl
@[simp] theorem State.storeBytes_i (n : Nat) (bs : List Byte) : (s.storeBytes n bs).i = s.i := rfl
@[simp] theorem State.storeBytes_pc (n : Nat) (bs : List Byte) : (s.storeBytes n bs).pc = s.pc := rfl
@[simp] theorem State.storeBytes_stack (n : Nat) (bs : List Byte) : (s.storeBytes n bs).stack = s.stack := rfl
@[simp] theorem State.storeBytes_sp (n : Nat) (bs : List Byte) : (s.storeBytes n bs).sp = s.sp := rfl
@[simp] theorem State.storeBytes_dt (n : Nat) (bs : List Byte) : (s.storeBytes n bs).dt = s.dt := rfl
@[simp] theorem State.storeBytes_st (n : Nat) (bs : List Byte) : (s.storeBytes n bs).st = s.st := rfl
@[simp] theorem State.storeBytes_mem (n : Nat) (bs : List Byte) : (s.storeBytes n bs).mem = s.mem.writeBytes n bs := rfl
@[simp] theorem State.storeBytes_fb (n : Nat) (bs : List Byte) : (s.storeBytes n bs).fb = s.fb := rfl
@[simp] theorem State.storeBytes_keys (n : Nat) (bs : List Byte) : (s.storeBytes n bs).keys = s.keys := rfl
@[simp] theorem State.storeBytes_compat (n : Nat) (bs : List Byte) : (s.storeBytes n bs).compat = s.compat := rfl
@[simp] theorem State.storeBytes_run (n : Nat) (bs : List Byte) : (s.storeBytes n bs).run = s.run := rfl
@[simp] theorem State.storeBytes_waitReg (n : Nat) (bs : List Byte) : (s.storeBytes n bs).waitReg = s.waitReg := rfl
@[simp] theorem State.storeBytes_faultKind (n : Nat) (bs : List Byte) : (s.storeBytes n bs).faultKind = s.faultKind := rfl
@[simp] theorem State.storeBytes_faultWord (n : Nat) (bs : List Byte) : (s.storeBytes n bs).faultWord = s.faultWord := rfl
@[simp] theorem State.storeBytes_faultAddr (n : Nat) (bs : List Byte) : (s.storeBytes n bs).faultAddr = s.faultAddr := rfl
@[simp] theorem State.storeBytes_rndIndex (n : Nat) (bs : List Byte) : (s.storeBytes n bs).rndIndex = s.rndIndex := rfl
@[simp] theorem State.storeBytes_getV (n : Nat) (bs : List Byte) (x : Reg) : (s.storeBytes n bs).getV x = s.getV x := rfl
@[simp] theorem State.storeBytes_keyDown (n : Nat) (bs : List Byte) (k : Reg) : (s.storeBytes n bs).keyDown k = s.keyDown k := rfl
@[simp] theorem State.storeBytes_index (n : Nat) (bs : List Byte) : (s.storeBytes n bs).index = s.index := rfl

/-! ### `raise` -/

@[simp] theorem State.raise_v (c : FaultKind) (w : Word) : (s.raise c w).v = s.v := rfl
@[simp] theorem State.raise_i (c : FaultKind) (w : Word) : (s.raise c w).i = s.i := rfl
@[simp] theorem State.raise_pc (c : FaultKind) (w : Word) : (s.raise c w).pc = s.pc := rfl
@[simp] theorem State.raise_stack (c : FaultKind) (w : Word) : (s.raise c w).stack = s.stack := rfl
@[simp] theorem State.raise_sp (c : FaultKind) (w : Word) : (s.raise c w).sp = s.sp := rfl
@[simp] theorem State.raise_dt (c : FaultKind) (w : Word) : (s.raise c w).dt = s.dt := rfl
@[simp] theorem State.raise_st (c : FaultKind) (w : Word) : (s.raise c w).st = s.st := rfl
@[simp] theorem State.raise_mem (c : FaultKind) (w : Word) : (s.raise c w).mem = s.mem := rfl
@[simp] theorem State.raise_fb (c : FaultKind) (w : Word) : (s.raise c w).fb = s.fb := rfl
@[simp] theorem State.raise_keys (c : FaultKind) (w : Word) : (s.raise c w).keys = s.keys := rfl
@[simp] theorem State.raise_compat (c : FaultKind) (w : Word) : (s.raise c w).compat = s.compat := rfl
@[simp] theorem State.raise_run (c : FaultKind) (w : Word) : (s.raise c w).run = .halted := rfl
@[simp] theorem State.raise_waitReg (c : FaultKind) (w : Word) : (s.raise c w).waitReg = s.waitReg := rfl
@[simp] theorem State.raise_faultKind (c : FaultKind) (w : Word) : (s.raise c w).faultKind = c := rfl
@[simp] theorem State.raise_faultWord (c : FaultKind) (w : Word) : (s.raise c w).faultWord = w := rfl
@[simp] theorem State.raise_faultAddr (c : FaultKind) (w : Word) : (s.raise c w).faultAddr = s.pc := rfl
@[simp] theorem State.raise_rndIndex (c : FaultKind) (w : Word) : (s.raise c w).rndIndex = s.rndIndex := rfl
@[simp] theorem State.raise_getV (c : FaultKind) (w : Word) (x : Reg) : (s.raise c w).getV x = s.getV x := rfl
@[simp] theorem State.raise_readByte (c : FaultKind) (w : Word) (a : Nat) : (s.raise c w).readByte a = s.readByte a := rfl
@[simp] theorem State.raise_keyDown (c : FaultKind) (w : Word) (k : Reg) : (s.raise c w).keyDown k = s.keyDown k := rfl
@[simp] theorem State.raise_index (c : FaultKind) (w : Word) : (s.raise c w).index = s.index := rfl

/-! ### `resume` -/

@[simp] theorem State.resume_v : (s.resume).v = s.v := rfl
@[simp] theorem State.resume_i : (s.resume).i = s.i := rfl
@[simp] theorem State.resume_pc : (s.resume).pc = s.pc := rfl
@[simp] theorem State.resume_stack : (s.resume).stack = s.stack := rfl
@[simp] theorem State.resume_sp : (s.resume).sp = s.sp := rfl
@[simp] theorem State.resume_dt : (s.resume).dt = s.dt := rfl
@[simp] theorem State.resume_st : (s.resume).st = s.st := rfl
@[simp] theorem State.resume_mem : (s.resume).mem = s.mem := rfl
@[simp] theorem State.resume_fb : (s.resume).fb = s.fb := rfl
@[simp] theorem State.resume_keys : (s.resume).keys = s.keys := rfl
@[simp] theorem State.resume_compat : (s.resume).compat = s.compat := rfl
@[simp] theorem State.resume_run : (s.resume).run = .running := rfl
@[simp] theorem State.resume_waitReg : (s.resume).waitReg = s.waitReg := rfl
@[simp] theorem State.resume_faultKind : (s.resume).faultKind = s.faultKind := rfl
@[simp] theorem State.resume_faultWord : (s.resume).faultWord = s.faultWord := rfl
@[simp] theorem State.resume_faultAddr : (s.resume).faultAddr = s.faultAddr := rfl
@[simp] theorem State.resume_rndIndex : (s.resume).rndIndex = s.rndIndex := rfl
@[simp] theorem State.resume_getV (x : Reg) : (s.resume).getV x = s.getV x := rfl
@[simp] theorem State.resume_readByte (a : Nat) : (s.resume).readByte a = s.readByte a := rfl
@[simp] theorem State.resume_keyDown (k : Reg) : (s.resume).keyDown k = s.keyDown k := rfl
@[simp] theorem State.resume_index : (s.resume).index = s.index := rfl

/-! ### `suspend` -/

@[simp] theorem State.suspend_v (r : Reg) : (s.suspend r).v = s.v := rfl
@[simp] theorem State.suspend_i (r : Reg) : (s.suspend r).i = s.i := rfl
@[simp] theorem State.suspend_pc (r : Reg) : (s.suspend r).pc = s.pc := rfl
@[simp] theorem State.suspend_stack (r : Reg) : (s.suspend r).stack = s.stack := rfl
@[simp] theorem State.suspend_sp (r : Reg) : (s.suspend r).sp = s.sp := rfl
@[simp] theorem State.suspend_dt (r : Reg) : (s.suspend r).dt = s.dt := rfl
@[simp] theorem State.suspend_st (r : Reg) : (s.suspend r).st = s.st := rfl
@[simp] theorem State.suspend_mem (r : Reg) : (s.suspend r).mem = s.mem := rfl
@[simp] theorem State.suspend_fb (r : Reg) : (s.suspend r).fb = s.fb := rfl
@[simp] theorem State.suspend_keys (r : Reg) : (s.suspend r).keys = s.keys := rfl
@[simp] theorem State.suspend_compat (r : Reg) : (s.suspend r).compat = s.compat := rfl
@[simp] theorem State.suspend_run (r : Reg) : (s.suspend r).run = .waitingForKey := rfl
@[simp] theorem State.suspend_waitReg (r : Reg) : (s.suspend r).waitReg = r := rfl
@[simp] theorem State.suspend_faultKind (r : Reg) : (s.suspend r).faultKind = s.faultKind := rfl
@[simp] theorem State.suspend_faultWord (r : Reg) : (s.suspend r).faultWord = s.faultWord := rfl
@[simp] theorem State.suspend_faultAddr (r : Reg) : (s.suspend r).faultAddr = s.faultAddr := rfl
@[simp] theorem State.suspend_rndIndex (r : Reg) : (s.suspend r).rndIndex = s.rndIndex := rfl
@[simp] theorem State.suspend_getV (r : Reg) (x : Reg) : (s.suspend r).getV x = s.getV x := rfl
@[simp] theorem State.suspend_readByte (r : Reg) (a : Nat) : (s.suspend r).readByte a = s.readByte a := rfl
@[simp] theorem State.suspend_keyDown (r : Reg) (k : Reg) : (s.suspend r).keyDown k = s.keyDown k := rfl
@[simp] theorem State.suspend_index (r : Reg) : (s.suspend r).index = s.index := rfl

end Sys2Proof.Machine
end

