-- ==== Sys2Proof/Laws/Memory.lean ====
section
/-! SUPPORT. Memory: reading after writing, with no premise on the memory; the canonical form and that every memory operation keeps it. -/

namespace Sys2Proof.Machine

@[simp] theorem Memory.read_nil (a : Nat) : Memory.read [] a = Memory.resetByte a := rfl

theorem Memory.read_cons (c : Host.Cell) (m : Memory) (a : Nat) :
    Memory.read (c :: m) a = if c.1 = a then c.2 else Memory.read m a := rfl

theorem Memory.read_of_forall_ne (m : Memory) (a : Nat) (h : ∀ c ∈ m, c.1 ≠ a) :
    Memory.read m a = Memory.resetByte a := by
  induction m with
  | nil => rfl
  | cons c m ih =>
    rw [Memory.read_cons, if_neg (h c (by simp))]
    exact ih fun d hd => h d (by simp [hd])

theorem Memory.mem_dropAt {m : Memory} {a : Nat} {c : Host.Cell} :
    c ∈ m.dropAt a ↔ c ∈ m ∧ c.1 ≠ a := by
  simp [Memory.dropAt]

theorem Memory.read_dropAt (m : Memory) (a x : Nat) :
    (m.dropAt a).read x = if x = a then Memory.resetByte a else m.read x := by
  induction m with
  | nil => by_cases h : x = a <;> simp [Memory.dropAt, h]
  | cons c m ih =>
    have step : Memory.dropAt (c :: m) a = if c.1 ≠ a then c :: Memory.dropAt m a else Memory.dropAt m a := by
      by_cases h : c.1 = a <;> simp [Memory.dropAt, h]
    rw [step]
    by_cases h : c.1 = a
    · rw [if_neg (by simpa using h), ih, Memory.read_cons]
      by_cases hx : x = a
      · simp [hx]
      · simp [hx, h, Ne.symm hx]
    · rw [if_pos h, Memory.read_cons, Memory.read_cons, ih]
      by_cases hx : x = a
      · subst hx; simp [h]
      · simp [hx]

theorem Memory.mem_place {m : Memory} {a : Nat} {b : Byte} {c : Host.Cell} :
    c ∈ m.place a b ↔ c = (a, b) ∨ c ∈ m := by
  induction m with
  | nil => simp [Memory.place]
  | cons d m ih =>
    by_cases h : d.1 < a
    · simp only [Memory.place, if_pos h, List.mem_cons, ih]; tauto
    · simp [Memory.place, h]

theorem Memory.read_place (m : Memory) (a x : Nat) (b : Byte) (h : ∀ c ∈ m, c.1 ≠ a) :
    (m.place a b).read x = if x = a then b else m.read x := by
  induction m with
  | nil => by_cases hx : x = a <;> simp [Memory.place, Memory.read_cons, hx, Ne.symm]
  | cons d m ih =>
    have hd : d.1 ≠ a := h d (by simp)
    have ih := ih fun c hc => h c (by simp [hc])
    by_cases hlt : d.1 < a
    · rw [Memory.place, if_pos hlt, Memory.read_cons, Memory.read_cons, ih]
      by_cases hx : x = a
      · subst hx; simp [hd]
      · simp [hx]
    · rw [Memory.place, if_neg hlt, Memory.read_cons]
      by_cases hx : x = a
      · simp [hx]
      · simp [hx, Ne.symm hx]

/-- A read after a write: the byte written at its address, the old byte everywhere else. -/
theorem Memory.read_write (m : Memory) (a x : Nat) (b : Byte) :
    (m.write a b).read x = if x = a then b else m.read x := by
  unfold Memory.write
  by_cases hb : b = Memory.resetByte a
  · rw [if_pos hb, Memory.read_dropAt, hb]
  · rw [if_neg hb, Memory.read_place _ _ _ _ fun c hc => (Memory.mem_dropAt.mp hc).2,
      Memory.read_dropAt]
    by_cases hx : x = a <;> simp [hx]

/-- A read after bytes were written from `a` up. -/
theorem Memory.read_writeBytes (m : Memory) (a x : Nat) (bs : List Byte) :
    (m.writeBytes a bs).read x =
      if a ≤ x ∧ x < a + bs.length then (bs[x - a]?).getD 0x00#8 else m.read x := by
  induction bs generalizing m a with
  | nil => simp [Memory.writeBytes]
  | cons b bs ih =>
    rw [Memory.writeBytes, ih, Memory.read_write]
    by_cases hx : x = a
    · subst hx; simp
    · by_cases hr : a + 1 ≤ x ∧ x < a + 1 + bs.length
      · have e : x - a = (x - (a + 1)) + 1 := by omega
        rw [if_pos hr, if_pos (by simp only [List.length_cons]; omega), e]; simp
      · rw [if_neg hr, if_neg hx, if_neg (by simp only [List.length_cons]; omega)]

/-! ### The canonical form is kept -/

theorem Memory.wf_nil : Memory.wf [] := by simp [Memory.wf]

theorem Memory.wf_dropAt {m : Memory} (h : m.wf) (a : Nat) : (m.dropAt a).wf :=
  ⟨h.1.sublist List.filter_sublist, fun c hc => h.2 c (Memory.mem_dropAt.mp hc).1⟩

theorem Memory.pairwise_place {m : Memory} (a : Nat) (b : Byte)
    (h : m.Pairwise fun c d => c.1 < d.1) (hne : ∀ c ∈ m, c.1 ≠ a) :
    (m.place a b).Pairwise fun c d => c.1 < d.1 := by
  induction m with
  | nil => simp [Memory.place]
  | cons d m ih =>
    obtain ⟨hd, hm⟩ := List.pairwise_cons.mp h
    have hda : d.1 ≠ a := hne d (by simp)
    by_cases hlt : d.1 < a
    · rw [Memory.place, if_pos hlt]
      refine List.pairwise_cons.mpr ⟨fun c hc => ?_, ih hm fun c hc => hne c (by simp [hc])⟩
      rcases Memory.mem_place.mp hc with rfl | hc
      · exact hlt
      · exact hd c hc
    · rw [Memory.place, if_neg hlt]
      refine List.pairwise_cons.mpr ⟨fun c hc => ?_, h⟩
      have had : a < d.1 := by omega
      rcases List.mem_cons.mp hc with rfl | hc
      · exact had
      · exact had.trans (hd c hc)

theorem Memory.wf_write {m : Memory} (h : m.wf) {a : Nat} (ha : a < memSize) (b : Byte) :
    (m.write a b).wf := by
  unfold Memory.write
  by_cases hb : b = Memory.resetByte a
  · rw [if_pos hb]; exact Memory.wf_dropAt h a
  · rw [if_neg hb]
    have hd := Memory.wf_dropAt h a
    refine ⟨Memory.pairwise_place a b hd.1 fun c hc => (Memory.mem_dropAt.mp hc).2, fun c hc => ?_⟩
    rcases Memory.mem_place.mp hc with rfl | hc
    · exact ⟨ha, hb⟩
    · exact hd.2 c hc

theorem Memory.wf_writeBytes {m : Memory} (h : m.wf) {a : Nat} {bs : List Byte}
    (hb : a + bs.length ≤ memSize) : (m.writeBytes a bs).wf := by
  induction bs generalizing m a with
  | nil => exact h
  | cons b bs ih =>
    simp only [List.length_cons] at hb
    exact ih (Memory.wf_write h (by omega) b) (by omega)

theorem State.reset_mem_wf : State.reset.mem.wf := Memory.wf_nil

/-- In canonical form a memory is its bytes: equal bytes at every address are equal data. -/
theorem Memory.eq_of_read_eq {m m' : Memory} (h : m.wf) (h' : m'.wf)
    (hr : ∀ a, m.read a = m'.read a) : m = m' := by
  have lookup : ∀ {m : Memory}, m.wf → ∀ {c : Host.Cell}, c ∈ m → m.read c.1 = c.2 := by
    intro m
    induction m with
    | nil => intro _ c hc; simp at hc
    | cons d m ih =>
      intro h c hc
      obtain ⟨hd, hm⟩ := List.pairwise_cons.mp h.1
      rw [Memory.read_cons]
      rcases List.mem_cons.mp hc with rfl | hc
      · simp
      · have := hd c hc
        rw [if_neg (by omega)]
        exact ih ⟨hm, fun e he => h.2 e (by simp [he])⟩ hc
  have listed : ∀ {m : Memory}, m.wf → ∀ {a : Nat} {b : Byte}, m.read a = b →
      b ≠ Memory.resetByte a → (a, b) ∈ m := by
    intro m h a b hb hne
    by_contra hmem
    by_cases hex : ∃ c ∈ m, c.1 = a
    · obtain ⟨c, hc, rfl⟩ := hex
      exact hmem (by rw [← hb, lookup h hc]; exact hc)
    · exact hne (by
        rw [← hb]; exact Memory.read_of_forall_ne m a fun c hc e => hex ⟨c, hc, e⟩)
  have sub : ∀ {m m' : Memory}, m.wf → m'.wf → (∀ a, m.read a = m'.read a) → m ⊆ m' := by
    intro m m' h h' hr c hc
    exact listed h' (by rw [← hr, lookup h hc]) (h.2 c hc).2
  have nodup : ∀ {m : Memory}, m.wf → m.Nodup := fun h =>
    h.1.imp fun {c d} hlt e => by subst e; exact absurd hlt (lt_irrefl _)
  have hp : m.Perm m' := (List.perm_ext_iff_of_nodup (nodup h) (nodup h')).mpr fun c =>
    ⟨fun hc => sub h h' hr hc, fun hc => sub h' h (fun a => (hr a).symm) hc⟩
  exact hp.eq_of_pairwise (fun c d _ _ h1 h2 => absurd h1 (by omega)) h.1 h'.1

/-! ### At the state -/

/-- The byte at an address after bytes were stored from `n` up. -/
theorem State.readByte_storeBytes (s : State) (n : Nat) (bs : List Byte) (a : Nat) :
    (s.storeBytes n bs).readByte a =
      if n ≤ a ∧ a < n + bs.length then (bs[a - n]?).getD 0x00#8 else s.readByte a :=
  Memory.read_writeBytes s.mem n a bs

/-- A memory access outside the address space is exactly one with a byte above `0xFFF` (R52). -/
theorem outsideMemory_iff (a cnt : Nat) :
    outsideMemory a cnt = true ↔ 1 ≤ cnt ∧ 0xFFF < a + cnt - 1 := by
  simp [outsideMemory]

/-- An access that passed the bound lies inside memory. -/
theorem le_memSize_of_inBounds {a cnt : Nat} (h : outsideMemory a cnt = false) (hc : 1 ≤ cnt) :
    a + cnt ≤ memSize := by
  simp [outsideMemory] at h
  have := h hc
  simp [memSize]; omega

end Sys2Proof.Machine
end

