-- ==== Sys2Proof/Laws/Decode.lean ====
section
/-! SUPPORT. The fields of a word built from its fields, and a word as its fields put together (30_encoding.md R71): what the round trips of decoder and encoder go through. -/

namespace Sys2Proof

@[simp] theorem fieldKind_nnn (k : BitVec 4) (nnn : Addr) : fieldKind (k ++ nnn) = k := by
  apply BitVec.eq_of_getLsbD_eq
  intro i hi
  simp only [fieldKind, BitVec.getLsbD_extractLsb', BitVec.getLsbD_append]
  interval_cases i <;> simp

@[simp] theorem fieldNNN_nnn (k : BitVec 4) (nnn : Addr) : fieldNNN (k ++ nnn) = nnn := by
  apply BitVec.eq_of_getLsbD_eq
  intro i hi
  simp only [fieldNNN, BitVec.getLsbD_extractLsb', BitVec.getLsbD_append]
  interval_cases i <;> simp

@[simp] theorem fieldX_nnn (k : BitVec 4) (nnn : Addr) : fieldX (k ++ nnn) = nnn.extractLsb' 8 4 := by
  apply BitVec.eq_of_getLsbD_eq
  intro i hi
  simp only [fieldX, BitVec.getLsbD_extractLsb', BitVec.getLsbD_append]
  interval_cases i <;> simp

@[simp] theorem fieldKind_xkk (k : BitVec 4) (x : Reg) (kk : Byte) : fieldKind (k ++ x ++ kk) = k := by
  apply BitVec.eq_of_getLsbD_eq
  intro i hi
  simp only [fieldKind, BitVec.getLsbD_extractLsb', BitVec.getLsbD_append]
  interval_cases i <;> simp

@[simp] theorem fieldX_xkk (k : BitVec 4) (x : Reg) (kk : Byte) : fieldX (k ++ x ++ kk) = x := by
  apply BitVec.eq_of_getLsbD_eq
  intro i hi
  simp only [fieldX, BitVec.getLsbD_extractLsb', BitVec.getLsbD_append]
  interval_cases i <;> simp

@[simp] theorem fieldKK_xkk (k : BitVec 4) (x : Reg) (kk : Byte) : fieldKK (k ++ x ++ kk) = kk := by
  apply BitVec.eq_of_getLsbD_eq
  intro i hi
  simp only [fieldKK, BitVec.getLsbD_extractLsb', BitVec.getLsbD_append]
  interval_cases i <;> simp

@[simp] theorem fieldKind_xyn (k : BitVec 4) (x y : Reg) (n : Nibble) : fieldKind (k ++ x ++ y ++ n) = k := by
  apply BitVec.eq_of_getLsbD_eq
  intro i hi
  simp only [fieldKind, BitVec.getLsbD_extractLsb', BitVec.getLsbD_append]
  interval_cases i <;> simp

@[simp] theorem fieldX_xyn (k : BitVec 4) (x y : Reg) (n : Nibble) : fieldX (k ++ x ++ y ++ n) = x := by
  apply BitVec.eq_of_getLsbD_eq
  intro i hi
  simp only [fieldX, BitVec.getLsbD_extractLsb', BitVec.getLsbD_append]
  interval_cases i <;> simp

@[simp] theorem fieldY_xyn (k : BitVec 4) (x y : Reg) (n : Nibble) : fieldY (k ++ x ++ y ++ n) = y := by
  apply BitVec.eq_of_getLsbD_eq
  intro i hi
  simp only [fieldY, BitVec.getLsbD_extractLsb', BitVec.getLsbD_append]
  interval_cases i <;> simp

@[simp] theorem fieldN_xyn (k : BitVec 4) (x y : Reg) (n : Nibble) : fieldN (k ++ x ++ y ++ n) = n := by
  apply BitVec.eq_of_getLsbD_eq
  intro i hi
  simp only [fieldN, BitVec.getLsbD_extractLsb', BitVec.getLsbD_append]
  interval_cases i <;> simp

theorem word_eq_nnn (w : Word) : fieldKind w ++ fieldNNN w = w := by
  apply BitVec.eq_of_getLsbD_eq
  intro i hi
  simp only [fieldKind, fieldNNN, BitVec.getLsbD_extractLsb', BitVec.getLsbD_append]
  interval_cases i <;> simp

theorem word_eq_xkk (w : Word) : fieldKind w ++ fieldX w ++ fieldKK w = w := by
  apply BitVec.eq_of_getLsbD_eq
  intro i hi
  simp only [fieldKind, fieldX, fieldKK, BitVec.getLsbD_extractLsb', BitVec.getLsbD_append]
  interval_cases i <;> simp

theorem word_eq_xyn (w : Word) : fieldKind w ++ fieldX w ++ fieldY w ++ fieldN w = w := by
  apply BitVec.eq_of_getLsbD_eq
  intro i hi
  simp only [fieldKind, fieldX, fieldY, fieldN, BitVec.getLsbD_extractLsb', BitVec.getLsbD_append]
  interval_cases i <;> simp

/-- The register number of `Bnnn` is the top digit of its address (R72). -/
theorem fieldX_eq_of_nnn (w : Word) : fieldX w = (fieldNNN w).extractLsb' 8 4 := by
  apply BitVec.eq_of_getLsbD_eq
  intro i hi
  simp only [fieldX, fieldNNN, BitVec.getLsbD_extractLsb']
  interval_cases i <;> simp

/-- The two bytes of a word, in memory order, are the word (20_memory.md R57). -/
@[simp] theorem wordOfBytes_bytes (w : Word) : wordOfBytes (highByte w) (lowByte w) = w := by
  apply BitVec.eq_of_getLsbD_eq
  intro i hi
  simp only [wordOfBytes, highByte, lowByte, BitVec.getLsbD_extractLsb', BitVec.getLsbD_append]
  interval_cases i <;> simp

end Sys2Proof
end

