-- ==== Sys2Proof/Laws/Ops.lean ====
section
/-! SUPPORT. One lemma for each shared operation that says what it does: registers, stack, keys, fetch, faults; and frames of the updates and their composition. -/

namespace Sys2Proof.Machine

/-! ### Registers -/

theorem State.getV_setV (s : State) (r x : Reg) (b : Byte) :
    (s.setV r b).getV x = if x = r then b else s.getV x := by
  simp only [State.getV, State.setV, Vector.getElem_set, BitVec.toNat_inj]
  simp only [eq_comm]

@[simp] theorem State.getV_setV_self (s : State) (r : Reg) (b : Byte) : (s.setV r b).getV r = b := by
  rw [State.getV_setV, if_pos rfl]

@[simp] theorem State.getV_setV_of_ne (s : State) {r x : Reg} (b : Byte) (h : x ≠ r) :
    (s.setV r b).getV x = s.getV x := by
  rw [State.getV_setV, if_neg h]

theorem State.getV_setVUpTo (s : State) (r x : Reg) (f : Nat → Byte) :
    (s.setVUpTo r f).getV x = if x.toNat ≤ r.toNat then f x.toNat else s.getV x := by
  simp [State.getV, State.setVUpTo]

/-- Result first, flag second (R123). -/
theorem State.getV_setFlagged (s : State) (r x : Reg) (c : Flagged) :
    (s.setFlagged r c).getV x =
      if x = regF then flagByte c.flag else if x = r then c.result else s.getV x := by
  simp only [State.setFlagged, State.getV_setV]

/-! ### Call stack -/

theorem State.push?_eq_none_iff (s : State) (w : Word) : s.push? w = none ↔ s.sp.val = 16 := by
  have := s.sp.isLt
  unfold State.push?
  split
  · simp; omega
  · simp; omega

/-- A push that succeeds: the entry at the old `SP`, `SP` one more, all else as before. -/
theorem State.push?_eq_some (s t : State) (w : Word) (h : s.push? w = some t) :
    s.sp.val < 16 ∧ t.sp.val = s.sp.val + 1
      ∧ (∀ k : Fin 16, t.stack[k.val] = if k.val = s.sp.val then w else s.stack[k.val])
      ∧ t = { s with stack := t.stack, sp := t.sp } := by
  unfold State.push? at h
  split at h
  · rename_i hlt
    obtain rfl := Option.some.inj h
    refine ⟨hlt, rfl, fun k => ?_, rfl⟩
    simp only [Vector.getElem_set]
    simp only [eq_comm]
  · simp at h

theorem State.pop?_eq_none_iff (s : State) : s.pop? = none ↔ s.sp.val = 0 := by
  unfold State.pop?
  split
  · simp; omega
  · simp; omega

/-- A pop that succeeds: the newest entry, `SP` one less, the array and all else as before. -/
theorem State.pop?_eq_some (s t : State) (w : Word) (h : s.pop? = some (w, t)) :
    ∃ k : Fin 16, s.sp.val = k.val + 1 ∧ w = s.stack[k.val] ∧ t.sp.val = k.val
      ∧ t = { s with sp := t.sp } := by
  unfold State.pop? at h
  have := s.sp.isLt
  split at h
  · rename_i hpos
    obtain ⟨rfl, rfl⟩ := Prod.mk.inj (Option.some.inj h)
    exact ⟨⟨s.sp.val - 1, by omega⟩, by simp; omega, rfl, rfl, rfl⟩
  · simp at h

/-! ### Keys -/

theorem State.keyDown_setKeys (s : State) (w : BitVec 16) (k : Reg) :
    (s.setKeys w).keyDown k = w.getLsbD k.toNat := by
  simp [State.keyDown, State.setKeys, BitVec.getLsbD_eq_getElem (show k.toNat < 16 from k.isLt)]

theorem State.leastKey?_eq_some_iff (s : State) (k : Nat) :
    s.leastKey? = some k ↔
      ∃ h : k < 16, s.keys[k] = true ∧ ∀ j (hj : j < k), s.keys[j] = false := by
  unfold State.leastKey?
  rw [List.find?_range_eq_some]
  constructor
  · rintro ⟨hk, hm, hall⟩
    have h16 : k < 16 := by simpa using hm
    refine ⟨h16, by simpa [h16] using hk, fun j hj => ?_⟩
    have := hall j hj
    have hj16 : j < 16 := by omega
    simpa [hj16] using this
  · rintro ⟨h16, hk, hall⟩
    refine ⟨by simp [h16, hk], by simpa using h16, fun j hj => ?_⟩
    have hj16 : j < 16 := by omega
    simp [hj16, hall j hj]

theorem State.leastKey?_eq_none_iff (s : State) :
    s.leastKey? = none ↔ ∀ k : Reg, s.keyDown k = false := by
  unfold State.leastKey?
  rw [List.find?_eq_none]
  constructor
  · intro h k
    have hk := k.isLt
    have := h k.toNat (by simpa using hk)
    simpa [State.keyDown, Vector.getElem?_eq_getElem (show k.toNat < 16 from hk)] using this
  · intro h k hk
    have hk : k < 16 := by simpa using hk
    have := h (BitVec.ofNat 4 k)
    simp only [State.keyDown, BitVec.toNat_ofNat] at this
    simp only [Nat.mod_eq_of_lt (show k < 2 ^ 4 by omega)] at this
    simp [hk, this]

/-- What a poll can do (R91): take the least key that is down, or suspend with none down. -/
theorem State.keyPoll_cases (s : State) (r : Reg) :
    (∃ k : Reg, s.keyDown k = true ∧ (∀ j : Reg, j.toNat < k.toNat → s.keyDown j = false)
        ∧ s.keyPoll r = ((s.setV r (k.setWidth 8)).advance).resume)
      ∨ ((∀ k : Reg, s.keyDown k = false) ∧ s.keyPoll r = s.suspend r) := by
  cases h : s.leastKey? with
  | none =>
    exact .inr ⟨(s.leastKey?_eq_none_iff).mp h, by simp [State.keyPoll, h]⟩
  | some k =>
    obtain ⟨h16, hk, hall⟩ := (s.leastKey?_eq_some_iff k).mp h
    have hkm : k % 2 ^ 4 = k := Nat.mod_eq_of_lt (by omega)
    refine .inl ⟨BitVec.ofNat 4 k, ?_, fun j hj => ?_, ?_⟩
    · simp only [State.keyDown, BitVec.toNat_ofNat, hkm]; exact hk
    · simp only [BitVec.toNat_ofNat, hkm] at hj
      exact hall j.toNat hj
    · have e : (BitVec.ofNat 4 k).setWidth 8 = BitVec.ofNat 8 k := by
        apply BitVec.eq_of_toNat_eq
        simp; omega
      simp [State.keyPoll, h, e]

/-! ### Fetch and step -/

theorem State.fetch?_eq_none_iff (s : State) : s.fetch? = none ↔ 0xFFF ≤ s.pc.toNat := by
  unfold State.fetch?
  split
  · simp; omega
  · simp; omega

theorem State.fetch?_eq_some_iff (s : State) (w : Word) :
    s.fetch? = some w ↔ s.pc.toNat < 0xFFF ∧ w = s.wordAtPc := by
  unfold State.fetch?
  split
  · simp; omega
  · simp only [Option.some.injEq, State.wordAtPc]
    constructor
    · rintro rfl; exact ⟨by omega, rfl⟩
    · rintro ⟨_, rfl⟩; rfl

/-- Everything a step can do (R90): the halted step, the waiting step, the fetch fault, the unknown word, or the decoded instruction. -/
theorem step_cases (s : State) (r : Result) (h : step s = r) :
    (s.run = .halted ∧ r = .next s)
      ∨ (s.run = .waitingForKey ∧ r = .next (s.keyPoll s.waitReg))
      ∨ (s.run = .running ∧ 0xFFF ≤ s.pc.toNat ∧ r = .next (s.raise .outOfBoundsAddress 0x0000#16))
      ∨ (s.run = .running ∧ s.pc.toNat < 0xFFF ∧ (∃ e, decode s.wordAtPc = .error e)
          ∧ r = .next (s.raise .unknownOpcode s.wordAtPc))
      ∨ (∃ i, s.run = .running ∧ s.pc.toNat < 0xFFF ∧ decode s.wordAtPc = .ok i ∧ r = exec i s) := by
  subst h
  cases hrun : s.run with
  | halted => exact .inl ⟨rfl, by simp [step, hrun, haltedStep]⟩
  | waitingForKey => exact .inr (.inl ⟨rfl, by simp [step, hrun, waitingStep]⟩)
  | running =>
    refine .inr (.inr ?_)
    cases hf : s.fetch? with
    | none =>
      exact .inl ⟨rfl, (s.fetch?_eq_none_iff).mp hf, by simp [step, hrun, hf, fetchFault]⟩
    | some w =>
      obtain ⟨hpc, rfl⟩ := (s.fetch?_eq_some_iff w).mp hf
      cases hd : decode s.wordAtPc with
      | error e =>
        exact .inr (.inl ⟨rfl, hpc, ⟨e, rfl⟩, by simp [step, hrun, hf, hd, unknownOpcodeFault]⟩)
      | ok i => exact .inr (.inr ⟨i, rfl, hpc, rfl, by simp [step, hrun, hf, hd]⟩)

/-! ### Frames -/

theorem Frame.refl (may : Part → Prop) (s : State) : Frame may s s := fun p _ => by
  cases p <;> rfl

theorem Part.same_trans {s t u : State} {p : Part} (h : Part.same s t p) (h' : Part.same t u p) :
    Part.same s u p := by
  cases p <;> exact Eq.trans h' h

theorem Frame.trans {P Q : Part → Prop} {s t u : State} (h : Frame P s t) (h' : Frame Q t u) :
    Frame (fun p => P p ∨ Q p) s u := fun p hp =>
  Part.same_trans (h p fun hP => hp (.inl hP)) (h' p fun hQ => hp (.inr hQ))

theorem Frame.mono {P Q : Part → Prop} {s t : State} (h : Frame P s t) (hPQ : ∀ p, P p → Q p) :
    Frame Q s t := fun p hp => h p fun hP => hp (hPQ p hP)

theorem Frame.setV (s : State) (r : Reg) (b : Byte) : Frame (fun p => p = .v r) s (s.setV r b) := by
  intro p hp
  cases p <;> simp_all [Part.same]

theorem Frame.setFlagged (s : State) (r : Reg) (c : Flagged) :
    Frame (fun p => p = .v r ∨ p = .v regF) s (s.setFlagged r c) :=
  (Frame.setV s r c.result).trans (Frame.setV _ regF (flagByte c.flag))

theorem Frame.setVUpTo (s : State) (r : Reg) (f : Nat → Byte) :
    Frame (fun p => ∃ x : Reg, x.toNat ≤ r.toNat ∧ p = .v x) s (s.setVUpTo r f) := by
  intro p hp
  cases p <;> simp_all [Part.same]
  case v x => simp [State.getV_setVUpTo, hp]

theorem Frame.setI (s : State) (w : Word) : Frame (fun p => p = .i) s (s.setI w) := by
  intro p hp
  cases p <;> simp_all [Part.same]

theorem Frame.setPc (s : State) (w : Word) : Frame (fun p => p = .pc) s (s.setPc w) := by
  intro p hp
  cases p <;> simp_all [Part.same]

theorem Frame.advance (s : State) : Frame (fun p => p = .pc) s s.advance := Frame.setPc s _

theorem Frame.skipIf (s : State) (c : Bool) : Frame (fun p => p = .pc) s (s.skipIf c) := Frame.setPc s _

theorem Frame.setDt (s : State) (b : Byte) : Frame (fun p => p = .dt) s (s.setDt b) := by
  intro p hp
  cases p <;> simp_all [Part.same]

theorem Frame.setSt (s : State) (b : Byte) : Frame (fun p => p = .st) s (s.setSt b) := by
  intro p hp
  cases p <;> simp_all [Part.same]

theorem Frame.setKeys (s : State) (w : BitVec 16) :
    Frame (fun p => ∃ k, p = .key k) s (s.setKeys w) := by
  intro p hp
  cases p <;> simp_all [Part.same]

theorem Frame.nextDraw (s : State) : Frame (fun p => p = .rndIndex) s s.nextDraw := by
  intro p hp
  cases p <;> simp_all [Part.same]

theorem Frame.setFb (s : State) (d : Display) :
    Frame (fun p => ∃ y x, p = .pixel y x) s (s.setFb d) := by
  intro p hp
  cases p <;> simp_all [Part.same]

theorem Frame.storeBytes (s : State) (n : Nat) (bs : List Byte) :
    Frame (fun p => ∃ a, n ≤ a ∧ a < n + bs.length ∧ p = .byte a) s (s.storeBytes n bs) := by
  intro p hp
  cases p <;> simp_all [Part.same]
  case byte a =>
    rw [State.readByte_storeBytes, if_neg fun h => by have := hp h.1; omega]

theorem Frame.raise (s : State) (c : FaultKind) (w : Word) : Frame Part.ofFault s (s.raise c w) := by
  intro p hp
  cases p <;> simp_all [Part.same, Part.ofFault]

theorem Frame.resume (s : State) : Frame (fun p => p = .run) s s.resume := by
  intro p hp
  cases p <;> simp_all [Part.same]

theorem Frame.suspend (s : State) (r : Reg) :
    Frame (fun p => p = .run ∨ p = .waitReg) s (s.suspend r) := by
  intro p hp
  cases p <;> simp_all [Part.same]

/-- Fault entry (R155): RUN and the record, and nothing else. -/
theorem haltsWith_raise (s : State) (c : FaultKind) (w : Word) : HaltsWith c w s (s.raise c w) :=
  ⟨rfl, rfl, rfl, rfl, Frame.raise s c w⟩

end Sys2Proof.Machine
end

