-- ==== Sys2Proof/Laws/Display.lean ====
section
/-! SUPPORT. The display: reading a pixel after one was written, and what the drawing loop of 44_display.md R136 does to every pixel and to the collision flag, said without the loop. -/

namespace Sys2Proof.Machine

theorem Display.pixel_setPixel (d : Display) (y y' : Fin 32) (x x' : Fin 64) (b : Bool) :
    (d.setPixel y x b).pixel y' x' = if y' = y ∧ x' = x then b else d.pixel y' x' := by
  unfold Display.setPixel Display.pixel
  by_cases hy : y = y'
  · subst hy
    by_cases hx : x = x'
    · subst hx; simp
    · have : x.val ≠ x'.val := fun e => hx (Fin.ext e)
      simp [this, Ne.symm hx]
  · have : y.val ≠ y'.val := fun e => hy (Fin.ext e)
    simp [this, Ne.symm hy]

@[simp] theorem Display.pixel_blank (y : Fin 32) (x : Fin 64) : Display.blank.pixel y x = false := by
  simp [Display.blank, Display.pixel]

/-- Two displays with the same pixels are the same display. -/
theorem Display.ext {d d' : Display} (h : ∀ y x, d.pixel y x = d'.pixel y x) : d = d' := by
  apply Vector.ext
  intro y hy
  apply Vector.ext
  intro x hx
  exact h ⟨y, hy⟩ ⟨x, hx⟩

/-- The bit of a sprite, given as its rows, that lands on pixel `(px, py)` when it is drawn at `(vx, vy)`: column `c = (px - vx) mod 64` if below 8, row `r = (py - vy) mod 32` if there is such a row, most significant bit first. -/
def spriteBit (vx vy : Nat) (rows : List Byte) (py : Fin 32) (px : Fin 64) : Bool :=
  let c := (px.val + 64 - vx % 64) % 64
  let r := (py.val + 32 - vy % 32) % 32
  decide (c < 8) && (rows[r]?.getD 0x00#8).getLsbD (7 - c)

/-- The sprite column of display column `x` for a sprite at `vx`. -/
def spriteColumn (vx : Nat) (x : Fin 64) : Nat := (x.val + 64 - vx % 64) % 64

/-- The sprite row of display row `y` for a sprite at `vy`. -/
def spriteRow (vy : Nat) (y : Fin 32) : Nat := (y.val + 32 - vy % 32) % 32

/-- The bit a sprite row puts on column `x`. -/
def rowBit (vx : Nat) (b : Byte) (x : Fin 64) : Bool :=
  decide (spriteColumn vx x < 8) && b.getLsbD (7 - spriteColumn vx x)

theorem spriteBit_eq (vx vy : Nat) (rows : List Byte) (y : Fin 32) (x : Fin 64) :
    spriteBit vx vy rows y x = rowBit vx (rows[spriteRow vy y]?.getD 0x00#8) x := rfl

theorem eq_column_iff (vx k : Nat) (hk : k < 64) (x : Fin 64) :
    x = Fin.ofNat 64 (vx + k) ↔ spriteColumn vx x = k := by
  rw [Fin.ext_iff, spriteColumn]
  simp only [Fin.ofNat]
  have := x.isLt
  omega

theorem eq_row_iff (vy : Nat) (y : Fin 32) : y = Fin.ofNat 32 vy ↔ spriteRow vy y = 0 := by
  rw [Fin.ext_iff, spriteRow]
  simp only [Fin.ofNat]
  have := y.isLt
  omega

theorem spriteRow_succ (vy : Nat) (y : Fin 32) :
    spriteRow (vy + 1) y = if spriteRow vy y = 0 then 31 else spriteRow vy y - 1 := by
  unfold spriteRow
  have := y.isLt
  split <;> omega

/-- The first `m` columns of a sprite row. -/
theorem Canvas.plotRow_prefix (vx py : Nat) (b : Byte) (c : Canvas) (m : Nat) (hm : m ≤ 8) :
    let d := (List.range m).foldl (fun c k => c.plot (vx + k) py (b.getLsbD (7 - k))) c
    (∀ y x, d.fb.pixel y x =
      (c.fb.pixel y x ^^ (decide (y = Fin.ofNat 32 py) && (decide (spriteColumn vx x < m)
        && b.getLsbD (7 - spriteColumn vx x)))))
    ∧ (d.collision = true ↔ c.collision = true ∨ ∃ x, spriteColumn vx x < m
        ∧ b.getLsbD (7 - spriteColumn vx x) = true ∧ c.fb.pixel (Fin.ofNat 32 py) x = true) := by
  induction m with
  | zero => simp
  | succ m ih =>
    obtain ⟨ihp, ihc⟩ := ih (by omega)
    simp only [List.range_succ, List.foldl_append, List.foldl_cons, List.foldl_nil]
    generalize hd : (List.range m).foldl (fun c k => c.plot (vx + k) py (b.getLsbD (7 - k))) c = d
      at ihp ihc
    have hcol := eq_column_iff vx m (by omega)
    have hself : spriteColumn vx (Fin.ofNat 64 (vx + m)) = m := (hcol _).mp rfl
    have hold : d.fb.pixel (Fin.ofNat 32 py) (Fin.ofNat 64 (vx + m))
        = c.fb.pixel (Fin.ofNat 32 py) (Fin.ofNat 64 (vx + m)) := by
      rw [ihp, hself]; simp
    refine ⟨fun y x => ?_, ?_⟩
    · simp only [Canvas.plot, Display.pixel_setPixel]
      by_cases hx : x = Fin.ofNat 64 (vx + m)
      · by_cases hy : y = Fin.ofNat 32 py
        · subst hx hy
          rw [if_pos ⟨rfl, rfl⟩, hold, hself]; simp
        · rw [if_neg fun h => hy h.1, ihp]; simp [-Fin.ofNat_eq_cast, hy]
      · have hne : spriteColumn vx x ≠ m := fun e => hx ((hcol x).mpr e)
        have : spriteColumn vx x < m ↔ spriteColumn vx x < m + 1 := by omega
        rw [if_neg fun h => hx h.2, ihp]; simp [this]
    · simp only [Canvas.plot, Bool.or_eq_true, Bool.and_eq_true, hold, ihc]
      constructor
      · rintro ((h | ⟨x, hx, hb, hp⟩) | ⟨hb, hp⟩)
        · exact .inl h
        · exact .inr ⟨x, by omega, hb, hp⟩
        · exact .inr ⟨_, by omega, by rw [hself]; exact hb, hp⟩
      · rintro (h | ⟨x, hx, hb, hp⟩)
        · exact .inl (.inl h)
        · by_cases hm' : spriteColumn vx x = m
          · obtain rfl := (hcol x).mpr hm'
            exact .inr ⟨by rw [hself] at hb; exact hb, hp⟩
          · exact .inl (.inr ⟨x, by omega, hb, hp⟩)

theorem Canvas.plotRow_pixel (vx py : Nat) (b : Byte) (c : Canvas) (y : Fin 32) (x : Fin 64) :
    (c.plotRow vx py b).fb.pixel y x =
      (c.fb.pixel y x ^^ (decide (y = Fin.ofNat 32 py) && rowBit vx b x)) :=
  (Canvas.plotRow_prefix vx py b c 8 le_rfl).1 y x

theorem Canvas.plotRow_collision (vx py : Nat) (b : Byte) (c : Canvas) :
    (c.plotRow vx py b).collision = true ↔ c.collision = true
      ∨ ∃ x, rowBit vx b x = true ∧ c.fb.pixel (Fin.ofNat 32 py) x = true := by
  have h := (Canvas.plotRow_prefix vx py b c 8 le_rfl).2
  simpa [Canvas.plotRow, rowBit, and_assoc] using h

theorem spriteBit_cons (vx vy : Nat) (b : Byte) (bs : List Byte) (hl : bs.length ≤ 31)
    (y : Fin 32) (x : Fin 64) :
    spriteBit vx vy (b :: bs) y x =
        (if y = Fin.ofNat 32 vy then rowBit vx b x else spriteBit vx (vy + 1) bs y x)
      ∧ (y = Fin.ofNat 32 vy → spriteBit vx (vy + 1) bs y x = false) := by
  rw [spriteBit_eq, spriteBit_eq, spriteRow_succ]
  by_cases hy : y = Fin.ofNat 32 vy
  · have h0 := (eq_row_iff vy y).mp hy
    have hnone : bs[31]? = none := List.getElem?_eq_none (by omega)
    rw [if_pos hy, h0]
    refine ⟨by simp, fun _ => ?_⟩
    rw [if_pos rfl, hnone]
    simp [rowBit]
  · have h0 : spriteRow vy y ≠ 0 := fun e => hy ((eq_row_iff vy y).mpr e)
    obtain ⟨r, hr⟩ := Nat.exists_eq_succ_of_ne_zero h0
    simp [-Fin.ofNat_eq_cast, hy, hr]

/-- What the loop does to every pixel and to the flag (R136): XOR with the sprite's bit there; a collision iff some sprite bit meets a lit pixel. -/
theorem Canvas.plotRows_spec (vx : Nat) (bs : List Byte) (py : Nat) (c : Canvas) (hl : bs.length ≤ 32) :
    (∀ y x, (Canvas.plotRows vx py bs c).fb.pixel y x = (c.fb.pixel y x ^^ spriteBit vx py bs y x))
      ∧ ((Canvas.plotRows vx py bs c).collision = true ↔ c.collision = true
          ∨ ∃ y x, spriteBit vx py bs y x = true ∧ c.fb.pixel y x = true) := by
  induction bs generalizing py c with
  | nil => simp [Canvas.plotRows, spriteBit]
  | cons b bs ih =>
    simp only [List.length_cons] at hl
    obtain ⟨ihp, ihc⟩ := ih (py + 1) (c.plotRow vx py b) (by omega)
    have hs := spriteBit_cons vx py b bs (by omega)
    refine ⟨fun y x => ?_, ?_⟩
    · rw [Canvas.plotRows, ihp, Canvas.plotRow_pixel, (hs y x).1]
      by_cases hy : y = Fin.ofNat 32 py
      · rw [(hs y x).2 hy]; simp [-Fin.ofNat_eq_cast, hy]
      · simp [-Fin.ofNat_eq_cast, hy]
    · rw [Canvas.plotRows, ihc, Canvas.plotRow_collision]
      constructor
      · rintro ((h | ⟨x, hb, hp⟩) | ⟨y, x, hb, hp⟩)
        · exact .inl h
        · exact .inr ⟨_, x, by rw [(hs _ x).1, if_pos rfl]; exact hb, hp⟩
        · have hy : y ≠ Fin.ofNat 32 py := fun e => by rw [(hs y x).2 e] at hb; simp at hb
          refine .inr ⟨y, x, by rw [(hs y x).1, if_neg hy]; exact hb, ?_⟩
          rw [Canvas.plotRow_pixel] at hp
          simpa [-Fin.ofNat_eq_cast, hy] using hp
      · rintro (h | ⟨y, x, hb, hp⟩)
        · exact .inl (.inl h)
        · by_cases hy : y = Fin.ofNat 32 py
          · subst hy
            rw [(hs _ x).1, if_pos rfl] at hb
            exact .inl (.inr ⟨x, hb, hp⟩)
          · rw [(hs y x).1, if_neg hy] at hb
            refine .inr ⟨y, x, hb, ?_⟩
            rw [Canvas.plotRow_pixel]
            simpa [-Fin.ofNat_eq_cast, hy] using hp

/-- On the pixel that sprite row `r`, column `k` lands on, the sprite's bit is that row's bit. -/
theorem spriteBit_at (vx vy : Nat) (rows : List Byte) (r k : Nat) (hr : r < 32) (hk : k < 8) :
    spriteBit vx vy rows (Fin.ofNat 32 (vy + r)) (Fin.ofNat 64 (vx + k)) =
      (rows[r]?.getD 0x00#8).getLsbD (7 - k) := by
  have h1 : spriteColumn vx (Fin.ofNat 64 (vx + k)) = k := (eq_column_iff vx k (by omega) _).mp rfl
  have h2 : spriteRow vy (Fin.ofNat 32 (vy + r)) = r := by
    unfold spriteRow
    simp only [Fin.ofNat]
    omega
  rw [spriteBit_eq, rowBit, h1, h2]
  simp [hk]

/-- Every pixel with a sprite bit is the pixel of some sprite row and column. -/
theorem exists_of_spriteBit {vx vy : Nat} {rows : List Byte} {y : Fin 32} {x : Fin 64}
    (h : spriteBit vx vy rows y x = true) :
    ∃ r k, r < rows.length ∧ r < 32 ∧ k < 8 ∧ y = Fin.ofNat 32 (vy + r) ∧ x = Fin.ofNat 64 (vx + k) := by
  rw [spriteBit_eq, rowBit, Bool.and_eq_true, decide_eq_true_eq] at h
  refine ⟨spriteRow vy y, spriteColumn vx x, ?_, ?_, h.1, ?_, ?_⟩
  · by_contra hge
    rw [List.getElem?_eq_none (by omega)] at h
    simp at h
  · unfold spriteRow; omega
  · rw [Fin.ext_iff]
    unfold spriteRow
    simp only [Fin.ofNat]
    have := y.isLt
    omega
  · rw [Fin.ext_iff]
    unfold spriteColumn
    simp only [Fin.ofNat]
    have := x.isLt
    omega

theorem State.spriteBytes_length (s : State) (n : Nibble) : (s.spriteBytes n).length = n.toNat := by
  simp [State.spriteBytes]

theorem State.spriteBytes_getElem? (s : State) (n : Nibble) (r : Nat) (hr : r < n.toNat) :
    (s.spriteBytes n)[r]? = some (s.readByte (s.index + r)) := by
  simp [State.spriteBytes, hr]

/-- Each pixel after a draw. -/
theorem State.drawn_pixel (s : State) (x y : Reg) (n : Nibble) (py : Fin 32) (px : Fin 64) :
    (s.drawn x y n).fb.pixel py px =
      (s.fb.pixel py px ^^ spriteBit (s.getV x).toNat (s.getV y).toNat (s.spriteBytes n) py px) :=
  (Canvas.plotRows_spec _ _ _ _ (by rw [s.spriteBytes_length]; omega)).1 py px

/-- The collision flag of a draw: some pixel went from on to off. -/
theorem State.drawn_collision (s : State) (x y : Reg) (n : Nibble) :
    (s.drawn x y n).collision = true ↔ ∃ py px,
      spriteBit (s.getV x).toNat (s.getV y).toNat (s.spriteBytes n) py px = true
        ∧ s.fb.pixel py px = true := by
  have h := (Canvas.plotRows_spec (s.getV x).toNat (s.spriteBytes n) (s.getV y).toNat
    { fb := s.fb, collision := false } (by rw [s.spriteBytes_length]; omega)).2
  simpa [State.drawn] using h

end Sys2Proof.Machine
end

