-- ==== Sys2Proof/Laws/Events.lean ====
section
/-! SUPPORT. What each of the host's operations can do: a reset, an event on a started and on a not started machine, the pulses of the reference schedule. -/

namespace Sys2Proof.Machine

/-! ### Reset and the machine's condition -/

theorem resetEvent_of_fits {program : List Byte} (h : program.length ≤ maxProg) (c : Compat) (n : Nat) :
    resetEvent program c n = .next { bootState program c with rndIndex := n } :=
  if_neg (Nat.not_lt.mpr h)

theorem resetEvent_of_too_large {program : List Byte} (h : maxProg < program.length) (c : Compat)
    (n : Nat) : resetEvent program c n = .fault .programTooLarge :=
  if_pos h

@[simp] theorem Vm.rndIndex_started (s : State) : (Vm.started s).rndIndex = s.rndIndex := rfl

@[simp] theorem Vm.rndIndex_notStarted (r : Option Fault) (n : Nat) :
    (Vm.notStarted r n).rndIndex = n := rfl

/-- A `Reset` does the same to every machine (R180, R182). -/
theorem Vm.deliver_reset (m : Vm) (program : List Byte) (c : Compat) :
    m.deliver (.reset program c) = Vm.ofResult m.rndIndex (resetEvent program c m.rndIndex) := by
  cases m <;> rfl

theorem Vm.deliver_reset_of_fits (m : Vm) {program : List Byte} (h : program.length ≤ maxProg)
    (c : Compat) :
    m.deliver (.reset program c) = .next (.started { bootState program c with rndIndex := m.rndIndex }) := by
  rw [Vm.deliver_reset, resetEvent_of_fits h]; rfl

theorem Vm.deliver_reset_of_too_large (m : Vm) {program : List Byte} (h : maxProg < program.length)
    (c : Compat) :
    m.deliver (.reset program c) = .next (.notStarted (some .programTooLarge) m.rndIndex) := by
  rw [Vm.deliver_reset, resetEvent_of_too_large h]; rfl

/-- An event that is not accepted changes nothing. -/
theorem Vm.deliver_of_not_accepted (m : Vm) (e : Event) (h : m.accepts e = false) :
    m.deliver e = .next m := by
  cases m with
  | started s => cases h
  | notStarted r n =>
    cases e with
    | reset => cases h
    | step => rfl
    | timerPulse => rfl
    | setKeys => rfl

theorem Vm.deliver_started_eq_of_next {s t : State} {e : Event} (h : Sys2Proof.Machine.deliver e s = .next t) :
    (Vm.started s).deliver e = .next (.started t) := by
  simp only [Vm.deliver, h, Vm.ofResult]

/-- Where a started machine comes from: an accepted `Reset`, or an event on a started one. -/
theorem Vm.deliver_eq_started {m : Vm} {e : Event} {t : State} (h : m.deliver e = .next (.started t)) :
    (∃ program c, program.length ≤ maxProg ∧ t = { bootState program c with rndIndex := m.rndIndex })
      ∨ ∃ s, m = .started s ∧ (∀ p c, e ≠ .reset p c) ∧ Sys2Proof.Machine.deliver e s = .next t := by
  cases e with
  | reset program c =>
    by_cases hl : program.length ≤ maxProg
    · rw [Vm.deliver_reset_of_fits m hl] at h
      cases h
      exact .inl ⟨program, c, hl, rfl⟩
    · rw [Vm.deliver_reset_of_too_large m (Nat.lt_of_not_le hl)] at h
      cases h
  | step =>
    cases m with
    | notStarted r n => cases h
    | started s =>
      refine .inr ⟨s, rfl, (fun _ _ h => nomatch h), ?_⟩
      cases hd : Sys2Proof.Machine.deliver .step s with
      | next u => simp only [Vm.deliver, hd, Vm.ofResult] at h; cases h; rfl
      | fault f => cases f; simp only [Vm.deliver, hd, Vm.ofResult] at h; cases h
      | refused r => simp only [Vm.deliver, hd, Vm.ofResult] at h; cases h
  | timerPulse =>
    cases m with
    | notStarted r n => cases h
    | started s => cases h; exact .inr ⟨s, rfl, (fun _ _ h => nomatch h), rfl⟩
  | setKeys k =>
    cases m with
    | notStarted r n => cases h
    | started s => cases h; exact .inr ⟨s, rfl, (fun _ _ h => nomatch h), rfl⟩

/-! ### Timer pulses and the reference schedule -/

@[simp] theorem State.setKeysIf_some (s : State) (k : BitVec 16) : s.setKeysIf (some k) = s.setKeys k := rfl

@[simp] theorem State.setKeysIf_none (s : State) : s.setKeysIf none = s := rfl

@[simp] theorem State.timerPulse_run (s : State) : s.timerPulse.run = s.run := by
  unfold State.timerPulse
  cases h : s.run <;> simp [h]

theorem State.timerPulse_of_halted {s : State} (h : s.run = .halted) : s.timerPulse = s := by
  simp [State.timerPulse, h]

theorem State.timerPulse_of_not_halted {s : State} (h : s.run ≠ .halted) :
    s.timerPulse = (s.setDt (countDown s.dt)).setSt (countDown s.st) := by
  unfold State.timerPulse
  cases hr : s.run <;> simp_all

theorem countDown_toNat (b : Byte) : (countDown b).toNat = b.toNat - 1 := by
  revert b; decide

theorem Scheduled.pulse_of_halted (ips rounds acc : Nat) {s : State} (h : s.run = .halted) :
    Scheduled.pulse ips rounds acc s = (s, acc) := by
  cases rounds <;> simp [Scheduled.pulse, h]

/-- The loop of R195 makes `acc / IPS` pulses, given rounds enough. -/
theorem Scheduled.pulse_of_not_halted {ips : Nat} (hips : 1 ≤ ips) (rounds acc : Nat)
    (hr : acc ≤ rounds) {s : State} (hs : s.run ≠ .halted) :
    Scheduled.pulse ips rounds acc s = (State.timerPulses (acc / ips) s, acc - acc / ips * ips) := by
  induction rounds generalizing acc s with
  | zero =>
    obtain rfl := Nat.le_zero.mp hr
    simp [Scheduled.pulse, State.timerPulses]
  | succ rounds ih =>
    unfold Scheduled.pulse
    by_cases hle : ips ≤ acc
    · rw [if_pos ⟨hle, hs⟩, ih (acc - ips) (by omega) (by simpa using hs)]
      have hd : acc / ips = (acc - ips) / ips + 1 := Nat.div_eq_sub_div hips hle
      rw [hd, Nat.add_mul, Nat.one_mul, State.timerPulses]
      congr 1
      omega
    · rw [if_neg fun h => hle h.1, Nat.div_eq_of_lt (Nat.lt_of_not_le hle)]
      simp [State.timerPulses]

end Sys2Proof.Machine
end

