-- ==== Sys2Proof/Laws/Exec.lean ====
section
/-! SUPPORT. What `exec` can answer, over all instructions: always a next state, and either the instruction's own fault or a state that is not halted by it; and what a key poll does. -/

namespace Sys2Proof.Machine

theorem State.keyPoll_of_least (s : State) (r k : Reg) (hk : s.keyDown k = true)
    (hl : ∀ j : Reg, j.toNat < k.toNat → s.keyDown j = false) :
    s.keyPoll r = ((s.setV r (k.setWidth 8)).advance).resume := by
  rcases s.keyPoll_cases r with ⟨k', hk', hl', e⟩ | ⟨h, _⟩
  · have hkk : k = k' := by
      apply BitVec.eq_of_toNat_eq
      by_contra hne
      rcases Nat.lt_or_gt_of_ne hne with h | h
      · rw [hl' k h] at hk; cases hk
      · rw [hl k' h] at hk'; cases hk'
    rw [e, hkk]
  · rw [h k] at hk; cases hk

theorem State.keyPoll_of_none (s : State) (r : Reg) (h : ∀ k, s.keyDown k = false) :
    s.keyPoll r = s.suspend r := by
  rcases s.keyPoll_cases r with ⟨k', hk', _, _⟩ | ⟨_, e⟩
  · rw [h k'] at hk'; cases hk'
  · exact e

/-- No instruction ends in a fault or a refusal of the model: every one answers a next state, in every state. -/
theorem exec_answers_next (i : Instr) (s : State) : ∃ t, exec i s = .next t := by
  cases i
  case ret => simp only [exec, execRet]; cases s.pop? <;> exact ⟨_, rfl⟩
  case call => simp only [exec, execCall]; cases s.push? (s.pc + 2) <;> exact ⟨_, rfl⟩
  case drw => simp only [exec, execDrw]; split <;> exact ⟨_, rfl⟩
  case addI => simp only [exec, execAddI]; split <;> exact ⟨_, rfl⟩
  case ldB => simp only [exec, execLdB]; split <;> exact ⟨_, rfl⟩
  case storeRegs => simp only [exec, execStoreRegs]; split <;> exact ⟨_, rfl⟩
  case loadRegs => simp only [exec, execLoadRegs]; split <;> exact ⟨_, rfl⟩
  all_goals exact ⟨_, rfl⟩

/-- An instruction raises its fault of R161 and does nothing else, or it has no fault and leaves the machine running, waiting or as it was. -/
theorem exec_cases (i : Instr) (s t : State) (h : exec i s = .next t) :
    (∃ k, instrFault i s = some k ∧ t = s.raise k (encode i))
      ∨ (instrFault i s = none ∧ (t.run = s.run ∨ t.run = .running ∨ t.run = .waitingForKey)) := by
  cases i
  case ret =>
    simp only [exec, execRet] at h
    cases hp : s.pop? with
    | none =>
      rw [hp] at h
      exact .inl ⟨.stackUnderflow, by simp [instrFault, (s.pop?_eq_none_iff).mp hp],
        (Host.Outcome.next.inj h).symm⟩
    | some q =>
      obtain ⟨w, u⟩ := q
      rw [hp] at h
      obtain ⟨k, hk, -, -, hu⟩ := State.pop?_eq_some s u w hp
      obtain rfl := Host.Outcome.next.inj h
      exact .inr ⟨by simp [instrFault, hk], .inl (by rw [hu]; rfl)⟩
  case call nnn =>
    simp only [exec, execCall] at h
    cases hp : s.push? (s.pc + 2) with
    | none =>
      rw [hp] at h
      exact .inl ⟨.stackOverflow, by simp [instrFault, (s.push?_eq_none_iff _).mp hp],
        (Host.Outcome.next.inj h).symm⟩
    | some u =>
      rw [hp] at h
      obtain ⟨hlt, -, -, hu⟩ := State.push?_eq_some s u _ hp
      obtain rfl := Host.Outcome.next.inj h
      exact .inr ⟨by simp [instrFault, Nat.ne_of_lt hlt], .inl (by rw [hu]; rfl)⟩
  case ldVxK x =>
    obtain rfl := Host.Outcome.next.inj h
    refine .inr ⟨rfl, .inr ?_⟩
    rcases s.keyPoll_cases x with ⟨_, _, _, e⟩ | ⟨_, e⟩ <;> simp [e]
  case drw x y n =>
    simp only [exec, execDrw] at h
    split at h <;> rename_i hc <;> obtain rfl := Host.Outcome.next.inj h
    · have hc := of_decide_eq_true hc
      exact .inl ⟨.outOfBoundsAddress, by simp only [instrFault]; exact if_pos hc, rfl⟩
    · have hc := of_decide_eq_false (Bool.eq_false_of_not_eq_true hc)
      exact .inr ⟨by simp only [instrFault]; exact if_neg hc, .inl (by simp)⟩
  case addI x =>
    simp only [exec, execAddI] at h
    split at h <;> rename_i hc <;> obtain rfl := Host.Outcome.next.inj h
    · exact .inl ⟨.outOfBoundsAddress, by simp only [instrFault]; exact if_pos hc, rfl⟩
    · exact .inr ⟨by simp only [instrFault]; exact if_neg hc, .inl (by simp)⟩
  case ldB x =>
    simp only [exec, execLdB] at h
    split at h <;> rename_i hc <;> obtain rfl := Host.Outcome.next.inj h <;>
      simp [outsideMemory, State.index] at hc
    · exact .inl ⟨.outOfBoundsAddress, by simp only [instrFault]; exact if_pos (by omega), rfl⟩
    · exact .inr ⟨by simp only [instrFault]; exact if_neg (by omega), .inl (by simp)⟩
  case storeRegs x =>
    simp only [exec, execStoreRegs] at h
    split at h <;> rename_i hc <;> obtain rfl := Host.Outcome.next.inj h <;>
      simp [outsideMemory, State.index] at hc
    · exact .inl ⟨.outOfBoundsAddress, by simp only [instrFault]; exact if_pos (by omega), rfl⟩
    · exact .inr ⟨by simp only [instrFault]; exact if_neg (by omega), .inl (by simp)⟩
  case loadRegs x =>
    simp only [exec, execLoadRegs] at h
    split at h <;> rename_i hc <;> obtain rfl := Host.Outcome.next.inj h <;>
      simp [outsideMemory, State.index] at hc
    · exact .inl ⟨.outOfBoundsAddress, by simp only [instrFault]; exact if_pos (by omega), rfl⟩
    · exact .inr ⟨by simp only [instrFault]; exact if_neg (by omega), .inl (by simp)⟩
  all_goals
    obtain rfl := Host.Outcome.next.inj h
    exact .inr ⟨rfl, .inl (by simp)⟩

end Sys2Proof.Machine
end

