-- ==== Sys2Proof/Laws/PerInstr.lean ====
section
/-! SUPPORT. One lemma per constructor of `Instr`: the instruction's word matches its row of the opcode map (30_encoding.md R77). -/

namespace Sys2Proof.Laws.MatchesRow

/-- The encoding of the instruction is a word of its row: `W & mask = match`. -/
def Statement (i : Instr) : Prop := i.row.covers (encode i) = true

/-- A word matches a row when the masked bits agree one by one. -/
theorem covers_of_bits (r : OpcodeRow) (w : Word)
    (h : ∀ i < 16, (w.getLsbD i && r.mask.getLsbD i) = r.pattern.getLsbD i) : r.covers w = true := by
  have e : w &&& r.mask = r.pattern := BitVec.eq_of_getLsbD_eq fun i hi => by
    rw [BitVec.getLsbD_and, h i hi]
  simp [OpcodeRow.covers, e]

theorem cls : Statement .cls := by
  unfold Statement; decide

theorem ret : Statement .ret := by
  unfold Statement; decide

theorem jp (nnn : Addr) : Statement (.jp nnn) :=
  covers_of_bits _ _ fun i hi => by
    simp only [encode, Instr.row, BitVec.getLsbD_append]
    interval_cases i <;> simp

theorem call (nnn : Addr) : Statement (.call nnn) :=
  covers_of_bits _ _ fun i hi => by
    simp only [encode, Instr.row, BitVec.getLsbD_append]
    interval_cases i <;> simp

theorem seImm (x : Reg) (kk : Byte) : Statement (.seImm x kk) :=
  covers_of_bits _ _ fun i hi => by
    simp only [encode, Instr.row, BitVec.getLsbD_append]
    interval_cases i <;> simp

theorem sneImm (x : Reg) (kk : Byte) : Statement (.sneImm x kk) :=
  covers_of_bits _ _ fun i hi => by
    simp only [encode, Instr.row, BitVec.getLsbD_append]
    interval_cases i <;> simp

theorem seReg (x : Reg) (y : Reg) : Statement (.seReg x y) :=
  covers_of_bits _ _ fun i hi => by
    simp only [encode, Instr.row, BitVec.getLsbD_append]
    interval_cases i <;> simp

theorem ldImm (x : Reg) (kk : Byte) : Statement (.ldImm x kk) :=
  covers_of_bits _ _ fun i hi => by
    simp only [encode, Instr.row, BitVec.getLsbD_append]
    interval_cases i <;> simp

theorem addImm (x : Reg) (kk : Byte) : Statement (.addImm x kk) :=
  covers_of_bits _ _ fun i hi => by
    simp only [encode, Instr.row, BitVec.getLsbD_append]
    interval_cases i <;> simp

theorem ldReg (x : Reg) (y : Reg) : Statement (.ldReg x y) :=
  covers_of_bits _ _ fun i hi => by
    simp only [encode, Instr.row, BitVec.getLsbD_append]
    interval_cases i <;> simp

theorem orReg (x : Reg) (y : Reg) : Statement (.orReg x y) :=
  covers_of_bits _ _ fun i hi => by
    simp only [encode, Instr.row, BitVec.getLsbD_append]
    interval_cases i <;> simp

theorem andReg (x : Reg) (y : Reg) : Statement (.andReg x y) :=
  covers_of_bits _ _ fun i hi => by
    simp only [encode, Instr.row, BitVec.getLsbD_append]
    interval_cases i <;> simp

theorem xorReg (x : Reg) (y : Reg) : Statement (.xorReg x y) :=
  covers_of_bits _ _ fun i hi => by
    simp only [encode, Instr.row, BitVec.getLsbD_append]
    interval_cases i <;> simp

theorem addReg (x : Reg) (y : Reg) : Statement (.addReg x y) :=
  covers_of_bits _ _ fun i hi => by
    simp only [encode, Instr.row, BitVec.getLsbD_append]
    interval_cases i <;> simp

theorem subReg (x : Reg) (y : Reg) : Statement (.subReg x y) :=
  covers_of_bits _ _ fun i hi => by
    simp only [encode, Instr.row, BitVec.getLsbD_append]
    interval_cases i <;> simp

theorem shr (x : Reg) (y : Reg) : Statement (.shr x y) :=
  covers_of_bits _ _ fun i hi => by
    simp only [encode, Instr.row, BitVec.getLsbD_append]
    interval_cases i <;> simp

theorem subn (x : Reg) (y : Reg) : Statement (.subn x y) :=
  covers_of_bits _ _ fun i hi => by
    simp only [encode, Instr.row, BitVec.getLsbD_append]
    interval_cases i <;> simp

theorem shl (x : Reg) (y : Reg) : Statement (.shl x y) :=
  covers_of_bits _ _ fun i hi => by
    simp only [encode, Instr.row, BitVec.getLsbD_append]
    interval_cases i <;> simp

theorem sneReg (x : Reg) (y : Reg) : Statement (.sneReg x y) :=
  covers_of_bits _ _ fun i hi => by
    simp only [encode, Instr.row, BitVec.getLsbD_append]
    interval_cases i <;> simp

theorem ldI (nnn : Addr) : Statement (.ldI nnn) :=
  covers_of_bits _ _ fun i hi => by
    simp only [encode, Instr.row, BitVec.getLsbD_append]
    interval_cases i <;> simp

theorem jpV0 (nnn : Addr) (x : Reg) : Statement (.jpV0 nnn x) :=
  covers_of_bits _ _ fun i hi => by
    simp only [encode, Instr.row, BitVec.getLsbD_append]
    interval_cases i <;> simp

theorem rnd (x : Reg) (kk : Byte) : Statement (.rnd x kk) :=
  covers_of_bits _ _ fun i hi => by
    simp only [encode, Instr.row, BitVec.getLsbD_append]
    interval_cases i <;> simp

theorem drw (x : Reg) (y : Reg) (n : Nibble) : Statement (.drw x y n) :=
  covers_of_bits _ _ fun i hi => by
    simp only [encode, Instr.row, BitVec.getLsbD_append]
    interval_cases i <;> simp

theorem skp (x : Reg) : Statement (.skp x) :=
  covers_of_bits _ _ fun i hi => by
    simp only [encode, Instr.row, BitVec.getLsbD_append]
    interval_cases i <;> simp

theorem sknp (x : Reg) : Statement (.sknp x) :=
  covers_of_bits _ _ fun i hi => by
    simp only [encode, Instr.row, BitVec.getLsbD_append]
    interval_cases i <;> simp

theorem ldVxDt (x : Reg) : Statement (.ldVxDt x) :=
  covers_of_bits _ _ fun i hi => by
    simp only [encode, Instr.row, BitVec.getLsbD_append]
    interval_cases i <;> simp

theorem ldVxK (x : Reg) : Statement (.ldVxK x) :=
  covers_of_bits _ _ fun i hi => by
    simp only [encode, Instr.row, BitVec.getLsbD_append]
    interval_cases i <;> simp

theorem ldDtVx (x : Reg) : Statement (.ldDtVx x) :=
  covers_of_bits _ _ fun i hi => by
    simp only [encode, Instr.row, BitVec.getLsbD_append]
    interval_cases i <;> simp

theorem ldStVx (x : Reg) : Statement (.ldStVx x) :=
  covers_of_bits _ _ fun i hi => by
    simp only [encode, Instr.row, BitVec.getLsbD_append]
    interval_cases i <;> simp

theorem addI (x : Reg) : Statement (.addI x) :=
  covers_of_bits _ _ fun i hi => by
    simp only [encode, Instr.row, BitVec.getLsbD_append]
    interval_cases i <;> simp

theorem ldF (x : Reg) : Statement (.ldF x) :=
  covers_of_bits _ _ fun i hi => by
    simp only [encode, Instr.row, BitVec.getLsbD_append]
    interval_cases i <;> simp

theorem ldB (x : Reg) : Statement (.ldB x) :=
  covers_of_bits _ _ fun i hi => by
    simp only [encode, Instr.row, BitVec.getLsbD_append]
    interval_cases i <;> simp

theorem storeRegs (x : Reg) : Statement (.storeRegs x) :=
  covers_of_bits _ _ fun i hi => by
    simp only [encode, Instr.row, BitVec.getLsbD_append]
    interval_cases i <;> simp

theorem loadRegs (x : Reg) : Statement (.loadRegs x) :=
  covers_of_bits _ _ fun i hi => by
    simp only [encode, Instr.row, BitVec.getLsbD_append]
    interval_cases i <;> simp

end Sys2Proof.Laws.MatchesRow
end

