-- ==== Sys2Proof/Tests/Slice0.lean ====
section
/-! SUPPORT. The model's own tests: the well-formedness smoke, decoding against words written out from 30_encoding.md, one-step tests whose expected values stand in 95_test_vectors.md (the vector's id is in each comment), and witnesses that the hypotheses of the obligations can be met. -/

namespace Sys2Proof.Tests

open Sys2Proof Sys2Proof.Machine

/-! ### Helpers -/

/-- The reset state in a mode. -/
def inMode (c : Compat) : State := { State.reset with compat := c }

/-- The answer is a next state that passes the check. -/
def onNext (r : Result) (p : State → Bool) : Bool :=
  match r with
  | .next t => p t
  | .fault _ => false
  | .refused _ => false

/-- One step on the word, in one mode, from the state `f` makes of that mode's reset state. -/
def stepIn (c : Compat) (f : State → State) (w : Nat) (p : State → Bool) : Bool :=
  onNext (step ((f (inMode c)).withFetchWord 16 w)) p

/-- The same in both modes. -/
def stepBoth (f : State → State) (w : Nat) (p : State → Bool) : Bool :=
  stepIn .modern f w p && stepIn .legacy f w p

/-- Registers set one after another. -/
def regs (l : List (Reg × Byte)) (s : State) : State := l.foldl (fun s c => s.setV c.1 c.2) s

/-- The step halted with this record, at this address. -/
def halted (t : State) (kind : FaultKind) (word addr : Word) : Bool :=
  t.run == .halted && t.faultKind == kind && t.faultWord == word && t.faultAddr == addr
    && t.pc == addr

/-! ### Well-formedness: the one check, and a term it refuses -/

/-- R72: the top digit of `nnn` and the register number are the same bits. -/
theorem test_wellFormed_jpV0 : (Instr.jpV0 0x234#12 2#4).wellFormed = true := by decide

theorem test_illFormed_jpV0 : (Instr.jpV0 0x234#12 3#4).wellFormed = false := by decide

/-- The ill-formed term is no word's reading: its word decodes to another instruction. -/
theorem test_illFormed_no_word :
    decode (encode (.jpV0 0x234#12 3#4)) = .ok (.jpV0 0x234#12 2#4) := by decide

/-! ### Decoding: each constructor's word bit by bit (R71, R72, R77) -/

theorem test_decode_cls : decode 0b0000000011100000#16 = .ok .cls := by decide

theorem test_decode_ret : decode 0b0000000011101110#16 = .ok .ret := by decide

theorem test_decode_jp : decode 0b0001001000000100#16 = .ok (.jp 0x204#12) := by decide

theorem test_decode_call : decode 0b0010001000010000#16 = .ok (.call 0x210#12) := by decide

theorem test_decode_seImm : decode 0b0011101000000001#16 = .ok (.seImm 10#4 0x01#8) := by decide

theorem test_decode_sneImm : decode 0b0100010110000000#16 = .ok (.sneImm 5#4 0x80#8) := by decide

theorem test_decode_seReg : decode 0b0101001000110000#16 = .ok (.seReg 2#4 3#4) := by decide

theorem test_decode_ldImm : decode 0b0110000000000101#16 = .ok (.ldImm 0#4 0x05#8) := by decide

theorem test_decode_addImm : decode 0b0111001011111111#16 = .ok (.addImm 2#4 0xFF#8) := by decide

theorem test_decode_ldReg : decode 0b1000000100100000#16 = .ok (.ldReg 1#4 2#4) := by decide

theorem test_decode_orReg : decode 0b1000000100100001#16 = .ok (.orReg 1#4 2#4) := by decide

theorem test_decode_andReg : decode 0b1000000100100010#16 = .ok (.andReg 1#4 2#4) := by decide

theorem test_decode_xorReg : decode 0b1000000100100011#16 = .ok (.xorReg 1#4 2#4) := by decide

theorem test_decode_addReg : decode 0b1000000100100100#16 = .ok (.addReg 1#4 2#4) := by decide

theorem test_decode_subReg : decode 0b1000000100100101#16 = .ok (.subReg 1#4 2#4) := by decide

theorem test_decode_shr : decode 0b1000000100100110#16 = .ok (.shr 1#4 2#4) := by decide

theorem test_decode_subn : decode 0b1000000100100111#16 = .ok (.subn 1#4 2#4) := by decide

theorem test_decode_shl : decode 0b1000000100101110#16 = .ok (.shl 1#4 2#4) := by decide

theorem test_decode_sneReg : decode 0b1001001000110000#16 = .ok (.sneReg 2#4 3#4) := by decide

theorem test_decode_ldI : decode 0b1010001100000001#16 = .ok (.ldI 0x301#12) := by decide

theorem test_decode_jpV0 : decode 0b1011001000110100#16 = .ok (.jpV0 0x234#12 2#4) := by decide

theorem test_decode_rnd : decode 0b1100001100001111#16 = .ok (.rnd 3#4 0x0F#8) := by decide

theorem test_decode_drw : decode 0b1101000100100101#16 = .ok (.drw 1#4 2#4 5#4) := by decide

theorem test_decode_skp : decode 0b1110001110011110#16 = .ok (.skp 3#4) := by decide

theorem test_decode_sknp : decode 0b1110001110100001#16 = .ok (.sknp 3#4) := by decide

theorem test_decode_ldVxDt : decode 0b1111001000000111#16 = .ok (.ldVxDt 2#4) := by decide

theorem test_decode_ldVxK : decode 0b1111000100001010#16 = .ok (.ldVxK 1#4) := by decide

theorem test_decode_ldDtVx : decode 0b1111010000010101#16 = .ok (.ldDtVx 4#4) := by decide

theorem test_decode_ldStVx : decode 0b1111010000011000#16 = .ok (.ldStVx 4#4) := by decide

theorem test_decode_addI : decode 0b1111001000011110#16 = .ok (.addI 2#4) := by decide

theorem test_decode_ldF : decode 0b1111001000101001#16 = .ok (.ldF 2#4) := by decide

theorem test_decode_ldB : decode 0b1111000100110011#16 = .ok (.ldB 1#4) := by decide

theorem test_decode_storeRegs : decode 0b1111001101010101#16 = .ok (.storeRegs 3#4) := by decide

theorem test_decode_loadRegs : decode 0b1111001001100101#16 = .ok (.loadRegs 2#4) := by decide

/-- Vectors IL1 to IL22: words that are no instruction. -/
theorem test_decode_illegal :
    ([0x0000, 0x0123, 0x00E1, 0x00EF, 0x00FE, 0x0EE0, 0x5121, 0x512F, 0x9121, 0x8128, 0x812D]
      ++ [0x812F, 0xE19F, 0xE1A0, 0xE100, 0xF100, 0xF10B, 0xF156, 0xF175, 0xF185, 0xF1FF, 0xFFFF]).all
      (fun w => match decode w with | .ok _ => false | .error e => e == DecodeError.unknownOpcode w) = true := by decide

/-- R57: the byte at the lower address is the high byte. -/
theorem test_decodeBytes_order : decodeBytes [0xD1#8, 0x25#8, 0x77#8] = .ok (.drw 1#4 2#4 5#4, [0x77#8]) := by
  decide

theorem test_decodeTableWord : decodeTableWord 16 0xF355 = some (.storeRegs 3#4) := by decide

/-- The opcode map has 34 rows, one for each constructor (R77, conflict C1). -/
theorem test_opcodeMap_length : opcodeMap.length = 34 := by decide

/-- The first instruction after reset runs, for one word of every row: the answer is a next state. -/
theorem test_every_row_runs :
    rowSamples.all (fun i => onNext (step (State.reset.withFetchWord 16 (encode i).toNat)) fun _ => true)
      = true := by decide

/-! ### One step: control flow (95_test_vectors.md 2.1) -/

/-- CF3. -/
theorem test_ret_pops : 
    stepBoth (fun s => { s with stack := (s.stack.set 14 0x0111#16).set 15 0x0ABC#16, sp := 16, pc := 0x300#16 }) 0x00EE (fun t => t.pc == 0xABC#16 && t.sp.val == 15) = true := by decide

/-- CF2. -/
theorem test_ret_underflow : 
    stepBoth (fun s => s) 0x00EE (fun t => halted t .stackUnderflow 0x00EE#16 0x200#16 && t.sp.val == 0) = true := by decide

/-- CF7. -/
theorem test_jp : 
    stepBoth (fun s => s) 0x1FFF (fun t => t.pc == 0xFFF#16) = true := by decide

/-- CF10. -/
theorem test_call_last_entry : 
    stepBoth (fun s => { s with sp := 15, pc := 0x400#16 }) 0x2300 (fun t => t.pc == 0x300#16 && t.sp.val == 16 && t.stack[15] == 0x402#16) = true := by decide

/-- CF11. -/
theorem test_call_overflow : 
    stepBoth (fun s => { s with sp := 16, pc := 0x400#16 }) 0x2300 (fun t => halted t .stackOverflow 0x2300#16 0x400#16 && t.sp.val == 16) = true := by decide

/-- CF27. -/
theorem test_seImm_taken : 
    stepBoth (fun s => s.setPc 0xFFE#16) 0x3A00 (fun t => t.pc == 0x1002#16) = true := by decide

/-- CF14. -/
theorem test_seImm_not : 
    stepBoth (fun s => (s.setPc 0x208#16).setV 1#4 0x01#8) 0x3100 (fun t => t.pc == 0x20A#16) = true := by decide

/-- CF16. -/
theorem test_sneImm_not : 
    stepBoth (fun s => s.setV 0#4 0x05#8) 0x4005 (fun t => t.pc == 0x202#16) = true := by decide

/-- CF17. -/
theorem test_sneImm_taken : 
    stepBoth (fun s => s.setV 0#4 0x05#8) 0x4006 (fun t => t.pc == 0x204#16) = true := by decide

/-- CF18. -/
theorem test_seReg_taken : 
    stepBoth (fun s => regs [(2, 0x7F), (3, 0x7F)] s) 0x5230 (fun t => t.pc == 0x204#16) = true := by decide

/-- CF19. -/
theorem test_seReg_not : 
    stepBoth (fun s => regs [(2, 0x7F), (3, 0x7E)] s) 0x5230 (fun t => t.pc == 0x202#16) = true := by decide

/-- CF21. -/
theorem test_sneReg_taken : 
    stepBoth (fun s => regs [(2, 0x01), (3, 0x02)] s) 0x9230 (fun t => t.pc == 0x204#16) = true := by decide

/-- CF23. -/
theorem test_sneReg_not : 
    stepBoth (fun s => s.setV 4#4 0x33#8) 0x9440 (fun t => t.pc == 0x202#16) = true := by decide

/-- CF25a. -/
theorem test_jpV0_modern : 
    stepIn .modern (fun s => regs [(0, 0xFF), (15, 0x01)] s) 0xBFFF (fun t => t.pc == 0x1000#16) = true := by decide

/-- CF25b. -/
theorem test_jpV0_legacy : 
    stepIn .legacy (fun s => regs [(0, 0xFF), (15, 0x01)] s) 0xBFFF (fun t => t.pc == 0x10FE#16) = true := by decide

/-! ### One step: register and arithmetic (2.2) -/

/-- AL2. -/
theorem test_ldImm : 
    stepBoth (fun s => s) 0x6FAB (fun t => t.getV 15#4 == 0xAB#8 && t.pc == 0x202#16) = true := by decide

/-- AL4. -/
theorem test_addImm_wraps_no_flag : 
    stepBoth (fun s => regs [(0, 0xFF), (15, 0x55)] s) 0x7001 (fun t => t.getV 0#4 == 0x00#8 && t.getV 15#4 == 0x55#8 && t.pc == 0x202#16) = true := by decide

/-- AL6. -/
theorem test_addImm_flag_register : 
    stepBoth (fun s => regs [(15, 0xFF)] s) 0x7F01 (fun t => t.getV 15#4 == 0x00#8 && t.pc == 0x202#16) = true := by decide

/-- AL8. -/
theorem test_ldReg : 
    stepBoth (fun s => regs [(1, 0x77)] s) 0x8F10 (fun t => t.getV 15#4 == 0x77#8 && t.getV 1#4 == 0x77#8 && t.pc == 0x202#16) = true := by decide

/-- AL9. -/
theorem test_orReg : 
    stepBoth (fun s => regs [(1, 0xF0), (2, 0x0F), (15, 0x01)] s) 0x8121 (fun t => t.getV 1#4 == 0xFF#8 && t.getV 15#4 == 0x01#8 && t.pc == 0x202#16) = true := by decide

/-- AL10. -/
theorem test_andReg : 
    stepBoth (fun s => regs [(1, 0xF0), (2, 0x3C), (15, 0x01)] s) 0x8122 (fun t => t.getV 1#4 == 0x30#8 && t.getV 15#4 == 0x01#8 && t.pc == 0x202#16) = true := by decide

/-- AL11. -/
theorem test_xorReg : 
    stepBoth (fun s => regs [(1, 0xF0), (2, 0x3C), (15, 0x01)] s) 0x8123 (fun t => t.getV 1#4 == 0xCC#8 && t.getV 15#4 == 0x01#8 && t.pc == 0x202#16) = true := by decide

/-- AL12. -/
theorem test_xorReg_self : 
    stepBoth (fun s => regs [(1, 0xF0)] s) 0x8113 (fun t => t.getV 1#4 == 0x00#8 && t.pc == 0x202#16) = true := by decide

/-- AL15. -/
theorem test_addReg_carry : 
    stepBoth (fun s => regs [(0, 0xFF), (1, 0xFF)] s) 0x8014 (fun t => t.getV 0#4 == 0xFE#8 && t.getV 15#4 == 0x01#8 && t.pc == 0x202#16) = true := by decide

/-- AL19. -/
theorem test_addReg_flag_last : 
    stepBoth (fun s => regs [(1, 0x20), (15, 0x10)] s) 0x8F14 (fun t => t.getV 15#4 == 0x00#8 && t.pc == 0x202#16) = true := by decide

/-- AL22. -/
theorem test_subReg_borrow : 
    stepBoth (fun s => regs [(1, 0x05), (2, 0x07)] s) 0x8125 (fun t => t.getV 1#4 == 0xFE#8 && t.getV 15#4 == 0x00#8 && t.pc == 0x202#16) = true := by decide

/-- AL24. -/
theorem test_subReg_equal : 
    stepBoth (fun s => regs [(1, 0x07), (2, 0x07)] s) 0x8125 (fun t => t.getV 1#4 == 0x00#8 && t.getV 15#4 == 0x01#8 && t.pc == 0x202#16) = true := by decide

/-- AL33a. -/
theorem test_shr_modern : 
    stepIn .modern (fun s => regs [(1, 0x05), (2, 0xF0)] s) 0x8126 (fun t => t.getV 1#4 == 0x02#8 && t.getV 15#4 == 0x01#8 && t.pc == 0x202#16) = true := by decide

/-- AL33b. -/
theorem test_shr_legacy : 
    stepIn .legacy (fun s => regs [(1, 0x05), (2, 0xF0)] s) 0x8126 (fun t => t.getV 1#4 == 0x78#8 && t.getV 15#4 == 0x00#8 && t.pc == 0x202#16) = true := by decide

/-- AL29. -/
theorem test_subn_no_borrow : 
    stepBoth (fun s => regs [(1, 0x05), (2, 0x07)] s) 0x8127 (fun t => t.getV 1#4 == 0x02#8 && t.getV 15#4 == 0x01#8 && t.pc == 0x202#16) = true := by decide

/-- AL32. -/
theorem test_subn_flag_last : 
    stepBoth (fun s => regs [(2, 0x03), (15, 0x09)] s) 0x8F27 (fun t => t.getV 15#4 == 0x00#8 && t.pc == 0x202#16) = true := by decide

/-- AL38a. -/
theorem test_shl_modern : 
    stepIn .modern (fun s => regs [(1, 0x81), (2, 0x7F)] s) 0x812E (fun t => t.getV 1#4 == 0x02#8 && t.getV 15#4 == 0x01#8 && t.pc == 0x202#16) = true := by decide

/-- AL38b. -/
theorem test_shl_legacy : 
    stepIn .legacy (fun s => regs [(1, 0x81), (2, 0x7F)] s) 0x812E (fun t => t.getV 1#4 == 0xFE#8 && t.getV 15#4 == 0x00#8 && t.pc == 0x202#16) = true := by decide

/-- AL42: the random byte is free, so the expected value is its low digit, and the draw is used up. -/
theorem test_rnd : ∃ t, step ((inMode .modern).withFetchWord 16 0xC30F) = .next t
    ∧ t.getV 3#4 = Config.rndByte 0 &&& 0x0F#8 ∧ t.rndIndex = 1 ∧ t.pc = 0x202#16 :=
  ⟨_, rfl, rfl, rfl, rfl⟩

/-! ### One step: index register and memory (2.3) -/

/-- IM2. -/
theorem test_ldI : 
    stepBoth (fun s => s.setI 0x1234#16) 0xAFFF (fun t => t.i == 0xFFF#16) = true := by decide

/-- IM4. -/
theorem test_addI_past_memory : 
    stepBoth (fun s => (s.setV 2#4 0x01#8).setI 0xFFF#16) 0xF21E (fun t => t.i == 0x1000#16 && t.getV 15#4 == 0x00#8 && t.pc == 0x202#16) = true := by decide

/-- IM6. -/
theorem test_addI_fault : 
    stepBoth (fun s => (s.setV 2#4 0xFF#8).setI 0xFF01#16) 0xF21E (fun t => halted t .outOfBoundsAddress 0xF21E#16 0x200#16 && t.i == 0xFF01#16) = true := by decide

/-- IM11: the low digit of `1A`, whatever `FONT_BASE` is. -/
theorem test_ldF : ∃ t, step (((inMode .modern).setV 2#4 0x1A#8).withFetchWord 16 0xF229) = .next t
    ∧ t.i = BitVec.ofNat 16 (Config.fontBase.val + 5 * 10) ∧ t.pc = 0x202#16 :=
  ⟨_, rfl, rfl, rfl⟩

/-- IM18. -/
theorem test_ldB_top : 
    stepBoth (fun s => (s.setV 0#4 0x7B#8).setI 0xFFD#16) 0xF033 (fun t => t.readByte 0xFFD == 0x01#8 && t.readByte 0xFFE == 0x02#8 && t.readByte 0xFFF == 0x03#8) = true := by decide

/-- IM19. -/
theorem test_ldB_fault : 
    stepBoth (fun s => (s.setV 0#4 0x7B#8).setI 0xFFE#16) 0xF033 (fun t => halted t .outOfBoundsAddress 0xF033#16 0x200#16 && t.readByte 0xFFE == 0x00#8) = true := by decide

/-- IM22a: the bytes, and I unchanged. -/
theorem test_storeRegs_modern : 
    stepIn .modern (fun s => (regs [(0, 1), (1, 2), (2, 3), (3, 4), (4, 9)] s).setI 0x300#16) 0xF355 (fun t => t.readByte 0x300 == 1#8 && t.readByte 0x303 == 4#8 && t.readByte 0x304 == 0#8 && t.i == 0x300#16) = true := by decide

/-- IM26b. -/
theorem test_storeRegs_legacy_top : 
    stepIn .legacy (fun s => (s.setV 0#4 0xAA#8).setI 0xFFF#16) 0xF055 (fun t => t.readByte 0xFFF == 0xAA#8 && t.i == 0x1000#16) = true := by decide

/-- IM30b. -/
theorem test_loadRegs_legacy : 
    stepIn .legacy (fun s => ((s.setV 3#4 0x77#8).setI 0x300#16).storeBytes 0x300 [2, 5, 4, 6]) 0xF265 (fun t => t.getV 0#4 == 2#8 && t.getV 2#4 == 4#8 && t.getV 3#4 == 0x77#8 && t.i == 0x303#16) = true := by decide

/-- IM33. -/
theorem test_loadRegs_fault : 
    stepBoth (fun s => ((s.setV 0#4 0x55#8).setI 0xFFF#16).storeBytes 0xFFF [0x11]) 0xF165 (fun t => halted t .outOfBoundsAddress 0xF165#16 0x200#16 && t.getV 0#4 == 0x55#8) = true := by decide

/-! ### One step: display (2.4) -/

/-- DS1. -/
theorem test_cls : 
    stepBoth (fun s => s.setFb ((s.fb.setPixel 0 0 true).setPixel 31 63 true)) 0x00E0 (fun t => !t.fb.pixel 0 0 && !t.fb.pixel 31 63 && t.pc == 0x202#16) = true := by decide

/-- DS8: both edges. -/
theorem test_drw_wraps : 
    stepIn .modern (fun s => ((regs [(0, 0xFF), (1, 0xFF)] s).setI 0x300#16).storeBytes 0x300 [0xC0]) 0xD011 (fun t => t.fb.pixel 31 63 && t.fb.pixel 31 0 && !t.fb.pixel 31 1 && !t.fb.pixel 31 62 && t.getV 15#4 == 0#8) = true := by decide

/-- DS4. -/
theorem test_drw_collides : 
    stepIn .modern (fun s => ((s.setI 0x300#16).storeBytes 0x300 [0xFF]).setFb (s.fb.setPixel 0 7 true)) 0xD011 (fun t => t.fb.pixel 0 0 && t.fb.pixel 0 6 && !t.fb.pixel 0 7 && t.getV 15#4 == 1#8) = true := by decide

/-! ### One step: keypad and timers (2.5) -/

/-- KT3. -/
theorem test_skp_low_digit : 
    stepBoth (fun s => (s.setV 3#4 0x1A#8).setKeys 0x0400#16) 0xE39E (fun t => t.pc == 0x204#16) = true := by decide

/-- KT2. -/
theorem test_skp_not : 
    stepBoth (fun s => ((s.setV 3#4 0x07#8).setKeys 0x0040#16).setPc 0x300#16) 0xE39E (fun t => t.pc == 0x302#16) = true := by decide

/-- KT6. -/
theorem test_sknp_not : 
    stepBoth (fun s => (s.setV 3#4 0xF0#8).setKeys 0x0001#16) 0xE3A1 (fun t => t.pc == 0x202#16) = true := by decide

/-- KT5. -/
theorem test_sknp_taken : 
    stepBoth (fun s => (s.setV 3#4 0x07#8).setPc 0x300#16) 0xE3A1 (fun t => t.pc == 0x304#16) = true := by decide

/-- KT7. -/
theorem test_ldVxDt : 
    stepBoth (fun s => s.setDt 0x3A#8) 0xF207 (fun t => t.getV 2#4 == 0x3A#8 && t.dt == 0x3A#8) = true := by decide

/-- KT10. -/
theorem test_ldVxK_suspends : 
    stepBoth (fun s => s.setPc 0x204#16) 0xF10A (fun t => t.run == .waitingForKey && t.waitReg == 1#4 && t.pc == 0x204#16) = true := by decide

/-- KT11. -/
theorem test_ldVxK_least_key : 
    stepBoth (fun s => (s.setKeys 0x0088#16).setPc 0x204#16) 0xF10A (fun t => t.run == .running && t.getV 1#4 == 3#8 && t.pc == 0x206#16) = true := by decide

/-- KT14. -/
theorem test_ldDtVx : 
    stepBoth (fun s => s.setV 0#4 0x3C#8) 0xF015 (fun t => t.dt == 0x3C#8 && t.st == 0#8) = true := by decide

/-- KT16. -/
theorem test_ldStVx : 
    stepBoth (fun s => s.setV 4#4 0x02#8) 0xF418 (fun t => t.st == 0x02#8 && t.dt == 0#8) = true := by decide

/-! ### Fetch faults, the waiting and the halted step, events (2.6, P6, 3.8, 3.9) -/

/-- IL22. -/
theorem test_unknown_opcode :
    stepBoth id 0xFFFF (fun t => halted t .unknownOpcode 0xFFFF#16 0x200#16) = true := by decide

/-- IL23: one byte left, no whole word. -/
theorem test_fetch_fault :
    onNext (step (((inMode .modern).setPc 0xFFF#16).storeBytes 0xFFF [0x60]))
      (fun t => halted t .outOfBoundsAddress 0x0000#16 0xFFF#16) = true := by decide

/-- IL26: the highest address an instruction runs from. -/
theorem test_fetch_last_word :
    stepBoth (fun s => s.setPc 0xFFE#16) 0x6005 (fun t => t.getV 0#4 == 5#8 && t.pc == 0x1000#16) = true := by
  decide

/-- A machine waiting at `0x204` with `WAIT_REG = 1` (P6 after step 3). -/
def waiting : State := ((inMode .modern).setPc 0x204#16).suspend 1#4

/-- P6, step 4. -/
theorem test_waiting_no_key : step waiting = .next waiting := rfl

/-- P6, step 5. -/
theorem test_waiting_takes_key :
    onNext (step (waiting.setKeys 0x0088#16))
      (fun t => t.getV 1#4 == 3#8 && t.pc == 0x206#16 && t.run == .running) = true := by decide

/-- A halted machine with both timers running (TM3). -/
def stopped : State :=
  (((inMode .modern).setDt 0x03#8).setSt 0x02#8).raise .unknownOpcode 0x0000#16

/-- TM3: nothing moves in Halted. -/
theorem test_halted : step stopped = .next stopped ∧ deliver .timerPulse stopped = .next stopped :=
  ⟨rfl, rfl⟩

/-- The answer is a started machine that passes the check. -/
def onStarted (r : Host.Outcome Vm Fault Refusal) (p : State → Bool) : Bool :=
  match r with
  | .next (.started t) => p t
  | .next (.notStarted _ _) => false
  | .fault _ => false
  | .refused _ => false

/-- TM2: three pulses, no wrap at 0, the tone on. -/
theorem test_timerPulses :
    onStarted (Vm.deliverAll [.timerPulse, .timerPulse, .timerPulse]
        (.started (((inMode .modern).setDt 2#8).setSt 5#8)))
      (fun t => t.dt == 0#8 && t.st == 2#8 && t.toneActive) = true := by decide

/-- TM4. -/
theorem test_tone_ends :
    onNext (deliver .timerPulse ((inMode .modern).setSt 1#8)) (fun t => t.st == 0#8 && !t.toneActive)
      = true := by decide

/-- The tick: keys first, then the step, then the pulse (R48, R170): the pulse sees the `DT` the step set. -/
theorem test_tick_order :
    onNext (tick 0x0001#16 1 (((inMode .modern).setV 0#4 0x3C#8).withFetchWord 16 0xF015))
      (fun t => t.dt == 0x3B#8 && t.keyDown 0#4) = true := by decide

/-- LD2: one byte, the rest zero, the first fetch reads `AB00`. -/
theorem test_load_one_byte :
    onNext (deliver (.reset [0xAB] .legacy) stopped)
      (fun t => t.fetch? == some 0xAB00#16 && t.compat == .legacy && t.run == .running && t.dt == 0#8
        && t.faultKind == .none) = true := by decide

/-- LD4: one byte too many. -/
theorem test_load_too_large :
    deliver (.reset (List.replicate 3585 0xAB#8) .modern) stopped = .fault .programTooLarge := by
  have h : maxProg < (List.replicate 3585 0xAB#8).length := by rw [List.length_replicate]; decide
  simp only [deliver, resetEvent, h, if_true]

/-- LD4, then LD2 (R156, R182): the refused load, a step and a pulse that are not accepted, and a `Reset` that is. -/
theorem test_load_recovers (big : List Byte) (h : maxProg < big.length) :
    Vm.deliverAll [.reset big .modern, .step, .timerPulse, .reset [0xAB] .legacy] (.started stopped)
      = .next (.started (bootState [0xAB] .legacy)) := by
  rw [Vm.deliverAll, Vm.deliver_reset_of_too_large _ h]
  rfl

/-- LD4: what the load interface reports, code 5 (R150), and that a key change is not accepted. -/
theorem test_load_report :
    (Vm.notStarted (some .programTooLarge) 0).loadReport.code = 5
      ∧ (Vm.notStarted (some .programTooLarge) 0).accepts (.setKeys 1) = false := by decide

/-- LD1: an empty program, and the first step from `State.reset` itself. -/
theorem test_reset_step :
    onNext (step State.reset) (fun t => halted t .unknownOpcode 0x0000#16 0x200#16) = true := by decide

/-- The reference schedule's machine with `DT = 9`, a jump to itself at PC, and an accumulator. -/
def scheduled (acc : Nat) : Scheduled :=
  { vm := .started (((inMode .modern).setDt 9#8).withFetchWord 16 0x1200), acc := acc, ips := defaultIps }

/-- R195 with `IPS = 700`: the first pulse follows step 12, which finds `acc = 660`. -/
theorem test_schedule_step12 :
    (match Scheduled.tick (some 0x0002#16) (scheduled 660) with
      | .next h => h.acc == 20 && h.ips == 700
          && onStarted (.next h.vm) (fun t => t.dt == 8#8 && t.keyDown 1#4)
      | .fault _ => false
      | .refused _ => false) = true := by decide

/-- And none follows step 11, which finds `acc = 600`. -/
theorem test_schedule_step11 :
    (match Scheduled.tick none (scheduled 600) with
      | .next h => h.acc == 660 && onStarted (.next h.vm) (fun t => t.dt == 9#8)
      | .fault _ => false
      | .refused _ => false) = true := by decide

/-- R8, R195: at startup `acc` is 0 and `IPS` is 700 where none is given. -/
theorem test_schedule_startup :
    (match Scheduled.reset [0x12, 0x00] .modern (.off 0) with
      | .next h => h.acc == 0 && h.ips == 700 && onStarted (.next h.vm) (fun t => t.pc == 0x200#16)
      | .fault _ => false
      | .refused _ => false) = true := by decide

/-- R45: pixel (5, 2) is bit `64*2 + 5`. -/
theorem test_displayPort :
    ((inMode .modern).setFb (Display.blank.setPixel 2 5 true)).displayPort[133] = true := by
  rw [State.displayPort, Vector.getElem_flatten]; decide

/-- R47, R150: the status port's codes after a fetch fault. -/
theorem test_statusPort :
    (stopped.raise .outOfBoundsAddress 0x0000#16).statusPort =
      { run := 2, faultKind := 4, faultWord := 0x0000#16, faultAddr := 0x200#16 } := by decide

/-- The canonical form: writing back the reset value removes the entry. -/
theorem test_memory_canonical :
    (Memory.write (Memory.write (Memory.write [] 0x400 7#8) 0x300 9#8) 0x400 0#8) = [(0x300, 9#8)] := by
  decide

/-! ### Witnesses: the hypotheses of each obligation can be met, clause by clause, at the edge of their range -/

theorem witness_DecodeOfEncode : (Instr.jpV0 0xFFF#12 0xF#4).wellFormed = true := by decide

theorem witness_EncodeOfDecode : decode 0xFF65#16 = .ok (.loadRegs 0xF#4) := by decide

theorem witness_WordMatchesRowIffDecodes :
    ∃ w : Word, ∃ j ∈ rowSamples, ∃ r ∈ opcodeMap, ∃ r' ∈ opcodeMap,
      j.row.covers w = true ∧ r.covers w = true ∧ r'.covers w = true :=
  ⟨0x00EE#16, .ret, by decide, Instr.row .ret, by decide, Instr.row .ret, by decide, by decide⟩

theorem witness_HaltedIsTerminal :
    stopped.run = .halted ∧ (∀ program compat, Event.timerPulse ≠ .reset program compat)
      ∧ ∃ t, deliver .timerPulse stopped = .next t :=
  ⟨rfl, (fun _ _ h => nomatch h), _, rfl⟩

theorem witness_WaitingStepPollsKeys_key :
    (waiting.setKeys 0x8000#16).run = .waitingForKey ∧ (waiting.setKeys 0x8000#16).keyDown 0xF#4 = true
      ∧ ∀ j : Reg, j.toNat < (0xF#4 : Reg).toNat → (waiting.setKeys 0x8000#16).keyDown j = false := by
  decide

theorem witness_WaitingStepPollsKeys_none :
    waiting.run = .waitingForKey ∧ ∀ k : Reg, waiting.keyDown k = false := by decide

theorem witness_FetchReadsWordOrFaults_fault :
    ((inMode .modern).setPc 0xFFF#16).run = .running ∧ 0xFFF ≤ ((inMode .modern).setPc 0xFFF#16).pc.toNat := by
  decide

theorem witness_FetchReadsWordOrFaults_word :
    ∃ s t : State, s.run = .running ∧ s.pc.toNat < 0xFFF ∧ step s = .next t ∧ t.run = .halted :=
  ⟨(inMode .modern).setPc 0xFFE#16, ((inMode .modern).setPc 0xFFE#16).raise .unknownOpcode 0x0000#16,
    by decide, by decide, rfl, by decide⟩

theorem witness_UnknownWordHalts :
    ∃ s : State, s.run = .running ∧ s.pc.toNat < 0xFFF
      ∧ ∀ i, decode (s.readByte s.pc.toNat ++ s.readByte (s.pc.toNat + 1)) ≠ .ok i := by
  have h : decode (((inMode .modern).withFetchWord 16 0xFFFF).readByte 0x200
      ++ ((inMode .modern).withFetchWord 16 0xFFFF).readByte 0x201) = .error (.unknownOpcode 0xFFFF#16) := by
    decide
  refine ⟨(inMode .modern).withFetchWord 16 0xFFFF, by decide, by decide, fun i hi => ?_⟩
  cases h.symm.trans hi

theorem witness_StepRunsDecodedInstruction :
    ∃ s : State, s.run = .running ∧ s.pc.toNat < 0xFFF
      ∧ decodeBytes [s.readByte s.pc.toNat, s.readByte (s.pc.toNat + 1)] = .ok (.ldImm 0#4 5#8, []) :=
  ⟨((inMode .modern).setPc 0xFFE#16).withFetchWord 16 0x6005, by decide, by decide, by decide⟩

theorem witness_StepHaltsExactlyOnFault_fetch :
    ∃ s : State, s.run = .running ∧ stepFault s = some (.outOfBoundsAddress, 0x0000#16) :=
  ⟨(inMode .modern).setPc 0xFFF#16, by decide, by decide⟩

theorem witness_StepHaltsExactlyOnFault_word :
    ∃ s : State, s.run = .running ∧ stepFault s = some (.unknownOpcode, 0x0000#16) :=
  ⟨(inMode .modern).setPc 0xFFE#16, by decide, by decide⟩

theorem witness_StepHaltsExactlyOnFault_instr :
    ∃ s : State, s.run = .running ∧ stepFault s = some (.stackUnderflow, 0x00EE#16) :=
  ⟨(inMode .modern).withFetchWord 16 0x00EE, by decide, by decide⟩

theorem witness_StepHaltsExactlyOnFault_no_fault :
    ∃ s : State, s.run = .running ∧ stepFault s = none :=
  ⟨(inMode .modern).withFetchWord 16 0x1200, by decide, by decide⟩

theorem witness_AddRegSetsCarry : (0xE#4 : Reg) ≠ 0xF#4 := by decide

theorem witness_SubRegSetsNoBorrow : (0xE#4 : Reg) ≠ 0xF#4 := by decide

theorem witness_SubnSetsNoBorrow : (0xE#4 : Reg) ≠ 0xF#4 := by decide

theorem witness_ShrShiftsModeSource :
    ∃ (s : State) (b : Byte), s.compat = .legacy
      ∧ b = (if s.compat = .legacy then s.getV 2#4 else s.getV 1#4) ∧ b = 0xFF#8 ∧ (1#4 : Reg) ≠ 0xF#4 :=
  ⟨(inMode .legacy).setV 2#4 0xFF#8, 0xFF#8, by decide, by decide, by decide, by decide⟩

theorem witness_ShlShiftsModeSource :
    ∃ (s : State) (b : Byte), s.compat = .modern
      ∧ b = (if s.compat = .legacy then s.getV 2#4 else s.getV 1#4) ∧ b = 0xFF#8 ∧ (1#4 : Reg) ≠ 0xF#4 :=
  ⟨(inMode .modern).setV 1#4 0xFF#8, 0xFF#8, by decide, by decide, by decide, by decide⟩

theorem witness_RetPopsOrUnderflows_pop :
    ({ inMode .modern with sp := 16 } : State).sp.val = (15 : Fin 16).val + 1 := by decide

theorem witness_RetPopsOrUnderflows_fault : (inMode .modern).sp.val = 0 := by decide

theorem witness_CallPushesOrOverflows_push :
    ({ inMode .modern with sp := 15 } : State).sp.val = (15 : Fin 16).val := by decide

theorem witness_CallPushesOrOverflows_fault :
    ({ inMode .modern with sp := 16 } : State).sp.val = 16 := by decide

/-- A state with `I` and `V[2]` set. -/
def indexed (i : Word) (b : Byte) : State := ((inMode .modern).setI i).setV 2#4 b

theorem witness_AddISumsOrFaults_sum :
    (indexed 0xFF00#16 0xFF#8).i.toNat + ((indexed 0xFF00#16 0xFF#8).getV 2#4).toNat ≤ 0xFFFF := by decide

theorem witness_AddISumsOrFaults_fault :
    0xFFFF < (indexed 0xFF01#16 0xFF#8).i.toNat + ((indexed 0xFF01#16 0xFF#8).getV 2#4).toNat := by decide

theorem witness_LdBStoresDecimalDigits_store : (indexed 0xFFD#16 0xFE#8).i.toNat + 2 ≤ 0xFFF := by decide

theorem witness_LdBStoresDecimalDigits_fault : 0xFFF < (indexed 0xFFE#16 0xFE#8).i.toNat + 2 := by decide

theorem witness_StoreRegsStoresRange_store :
    (indexed 0xFF0#16 0#8).i.toNat + (0xF#4 : Reg).toNat ≤ 0xFFF ∧ (0xF#4 : Reg).toNat ≤ (0xF#4 : Reg).toNat := by
  decide

theorem witness_StoreRegsStoresRange_fault :
    0xFFF < (indexed 0xFF1#16 0#8).i.toNat + (0xF#4 : Reg).toNat := by decide

theorem witness_LoadRegsLoadsRange_load :
    (indexed 0xFFF#16 0#8).i.toNat + (0x0#4 : Reg).toNat ≤ 0xFFF ∧ (0x0#4 : Reg).toNat ≤ (0x0#4 : Reg).toNat := by
  decide

theorem witness_LoadRegsLoadsRange_fault :
    0xFFF < (indexed 0x1000#16 0#8).i.toNat + (0x0#4 : Reg).toNat := by decide

theorem witness_LoadRegsReturnsStored :
    ∃ s t u : State, s.i.toNat + (0x0#4 : Reg).toNat ≤ 0xFFF ∧ exec (.storeRegs 0x0#4) s = .next t
      ∧ (∀ a, u.readByte a = t.readByte a) ∧ u.i = s.i ∧ u.getV 0#4 ≠ s.getV 0#4 :=
  ⟨indexed 0xFFF#16 0#8, _, ((indexed 0xFFF#16 0#8).storeBytes 0xFFF [0#8]).setV 0#4 9#8,
    by decide, rfl, fun _ => rfl, rfl, by decide⟩

theorem witness_DecimalDigitsHaveTheValue : (indexed 0xFFD#16 0xFF#8).i.toNat + 2 ≤ 0xFFF := by decide

theorem witness_FetchSeesTheStore :
    ∃ s : State, s.i.toNat + (0xF#4 : Reg).toNat ≤ 0xFFF ∧ (0xE#4 : Reg).toNat + 1 ≤ (0xF#4 : Reg).toNat
      ∧ (s.pc + 2).toNat = s.i.toNat + (0xE#4 : Reg).toNat :=
  ⟨(indexed 0xFF0#16 0#8).setPc 0xFFC#16, by decide, by decide, by decide⟩

theorem witness_DrwDrawsSprite_draw :
    (0xF#4 : Nibble).toNat = 0 ∨ (indexed 0xFF1#16 0#8).i.toNat + (0xF#4 : Nibble).toNat - 1 ≤ 0xFFF := by decide

theorem witness_DrwDrawsSprite_no_rows :
    (0x0#4 : Nibble).toNat = 0 ∨ (indexed 0xFFFF#16 0#8).i.toNat + (0x0#4 : Nibble).toNat - 1 ≤ 0xFFF := by decide

theorem witness_DrwDrawsSprite_untouched_pixel :
    ∀ r c : Nat, r < (0x1#4 : Nibble).toNat → c < 8 →
      ¬ ((1 : Fin 32) = Fin.ofNat 32 (((inMode .modern).getV 0#4).toNat + r)
        ∧ (8 : Fin 64) = Fin.ofNat 64 (((inMode .modern).getV 0#4).toNat + c)) := by
  have h : ∀ r : Fin 1, ∀ c : Fin 8,
      ¬ ((1 : Fin 32) = Fin.ofNat 32 (((inMode .modern).getV 0#4).toNat + r.val)
        ∧ (8 : Fin 64) = Fin.ofNat 64 (((inMode .modern).getV 0#4).toNat + c.val)) := by decide
  exact fun r c hr hc => h ⟨r, hr⟩ ⟨c, hc⟩

theorem witness_DrwDrawsSprite_fault :
    1 ≤ (0xF#4 : Nibble).toNat ∧ 0xFFF < (indexed 0xFF2#16 0#8).i.toNat + (0xF#4 : Nibble).toNat - 1 := by decide

theorem witness_DrawingTwiceRestoresDisplay :
    (0xE#4 : Reg) ≠ 0xF#4 ∧ (0x0#4 : Reg) ≠ 0xF#4
      ∧ ((0xF#4 : Nibble).toNat = 0 ∨ (indexed 0xFF1#16 0#8).i.toNat + (0xF#4 : Nibble).toNat - 1 ≤ 0xFFF) := by
  decide

theorem witness_SkipsOnKeyLevel_down :
    ∃ s : State, (0xF#4 : Reg).toNat = (s.getV 2#4).toNat % 16 ∧ s.keyDown 0xF#4 = true :=
  ⟨(indexed 0#16 0xFF#8).setKeys 0x8000#16, by decide, by decide⟩

theorem witness_SkipsOnKeyLevel_up :
    ∃ s : State, (0x0#4 : Reg).toNat = (s.getV 2#4).toNat % 16 ∧ s.keyDown 0x0#4 = false :=
  ⟨(indexed 0#16 0xF0#8).setKeys 0x8000#16, by decide, by decide⟩

theorem witness_KeyWaitTakesKeyOrSuspends_key :
    ((inMode .modern).setKeys 0xFFFF#16).keyDown 0x0#4 = true
      ∧ ∀ j : Reg, j.toNat < (0x0#4 : Reg).toNat → ((inMode .modern).setKeys 0xFFFF#16).keyDown j = false := by
  decide

theorem witness_KeyWaitTakesKeyOrSuspends_none : ∀ k : Reg, (inMode .modern).keyDown k = false := by decide

/-- `Fx65` in Modern mode meets the premises of every clause but the one that excludes it by name. -/
theorem witness_EachPartHasItsWriters :
    ∃ (i : Instr) (s t : State), exec i s = .next t ∧ (∀ x, i ≠ .ldDtVx x) ∧ (∀ x, i ≠ .ldStVx x)
      ∧ (∀ nnn, i ≠ .call nnn) ∧ i ≠ .ret ∧ (∀ x, i ≠ .ldB x) ∧ (∀ x, i ≠ .storeRegs x) ∧ i ≠ .cls
      ∧ (∀ x y n, i ≠ .drw x y n) ∧ (∀ nnn, i ≠ .ldI nnn) ∧ (∀ x, i ≠ .addI x) ∧ (∀ x, i ≠ .ldF x)
      ∧ ((∀ x, i ≠ .storeRegs x) ∧ (∀ x, i ≠ .loadRegs x) ∨ s.compat = .modern) := by
  refine ⟨.loadRegs 0xF#4, inMode .modern, _, rfl, ?_⟩
  simp [inMode]

theorem witness_RegistersWrittenOnlyByDestination_other :
    (∃ t, exec (.addReg 1#4 2#4) (inMode .modern) = .next t) ∧ writesV (.addReg 1#4 2#4) 0xE#4 = false :=
  ⟨⟨_, rfl⟩, by decide⟩

theorem witness_RegistersWrittenOnlyByDestination_flag :
    (∃ t, exec (.drw 1#4 2#4 0xF#4) (indexed 0xFF1#16 0#8) = .next t)
      ∧ instrFault (.drw 1#4 2#4 0xF#4) (indexed 0xFF1#16 0#8) = none :=
  ⟨⟨_, rfl⟩, by decide⟩

theorem witness_ModeMattersToFiveInstructions : readsCompat (.ldB 2#4) = false := by decide

theorem witness_PcMovesByClass_fault :
    (∃ t, exec .ret (inMode .modern) = .next t) ∧ instrFault .ret (inMode .modern) ≠ none :=
  ⟨⟨_, rfl⟩, by decide⟩

theorem witness_PcMovesByClass_no_fault :
    ∃ (i : Instr) (s t : State), exec i s = .next t ∧ instrFault i s = none ∧ i ≠ .ret
      ∧ (∀ a, i ≠ .jp a) ∧ (∀ a, i ≠ .call a) ∧ (∀ a x, i ≠ .jpV0 a x) ∧ (∀ x, i ≠ .ldVxK x) :=
  ⟨.seImm 0#4 0#8, (inMode .modern).setPc 0xFFE#16, _, rfl, by simp [instrFault]⟩

theorem witness_PcMovesByClass_key_wait : ∃ t, exec (.ldVxK 0xF#4) (inMode .modern) = .next t := ⟨_, rfl⟩

theorem witness_StepNeverWritesKeysModeTimers :
    ∃ t, step ((inMode .modern).withFetchWord 16 0xF015) = .next t := ⟨_, rfl⟩

theorem witness_RetReturnsAfterCall :
    ∃ s t u : State, s.sp.val < 16 ∧ exec (.call 0xFFF#12) s = .next t ∧ u.stack = t.stack ∧ u.sp = t.sp :=
  ⟨{ inMode .modern with sp := 15 }, _, _, by decide, rfl, rfl, rfl⟩

theorem witness_TimerPulseCountsDown_halted : stopped.run = .halted := by decide

theorem witness_TimerPulseCountsDown_running : waiting.run ≠ .halted := by decide

theorem witness_PulsesRunTimersDown : ((inMode .modern).setSt 0xFF#8).run ≠ .halted := by decide

theorem witness_ResetLoadsProgramOrRefuses_fits :
    (List.replicate 3584 0xAB#8).length ≤ 3584 ∧ 3583 < (List.replicate 3584 0xAB#8).length
      ∧ 79 < fontData.length := by
  rw [List.length_replicate]; decide

/-- A byte that neither the font nor the program covers, whatever `FONT_BASE` is: the one after a short program. -/
theorem witness_ResetLoadsProgramOrRefuses_zero :
    ∃ a : Nat, a < 4096 ∧ (a < Config.fontBase.val ∨ Config.fontBase.val + 80 ≤ a)
      ∧ (a < 0x200 ∨ 0x200 + [0xAB#8].length ≤ a) :=
  ⟨0x201, by decide, .inr (by have := Config.fontBase.isLt; omega), .inr (by decide)⟩

theorem witness_ResetLoadsProgramOrRefuses_refused : 3584 < (List.replicate 3585 0xAB#8).length := by
  rw [List.length_replicate]; decide

theorem witness_RefusedLoadAwaitsReset_refused : 3584 < (List.replicate 3585 0xAB#8).length := by
  rw [List.length_replicate]; decide

theorem witness_RefusedLoadAwaitsReset_not_accepted : ∀ p d, Event.step ≠ .reset p d := fun _ _ h => nomatch h

theorem witness_RefusedLoadAwaitsReset_again :
    (List.replicate 3584 0xAB#8).length ≤ 3584 ∧ 3583 < (List.replicate 3584 0xAB#8).length := by
  rw [List.length_replicate]; decide

theorem witness_ScheduleCountsPulses_startup : (List.replicate 3584 0xAB#8).length ≤ 3584 := by
  rw [List.length_replicate]

/-- A step after which two pulses are due at `IPS = 60`. -/
theorem witness_ScheduleCountsPulses_running :
    ∃ (h : Scheduled) (s t : State), 1 ≤ h.ips ∧ h.vm = .started s ∧ step (s.setKeysIf none) = .next t
      ∧ 2 = (if t.run = .halted then 0 else (h.acc + 60) / h.ips) :=
  ⟨{ vm := .started ((inMode .modern).withFetchWord 16 0x1200), acc := 60, ips := 60 }, _, _,
    by decide, rfl, rfl, by decide⟩

/-- A step that halts, after which none is. -/
theorem witness_ScheduleCountsPulses_halted :
    ∃ (h : Scheduled) (s t : State), 1 ≤ h.ips ∧ h.vm = .started s ∧ step (s.setKeysIf (some 0#16)) = .next t
      ∧ 0 = (if t.run = .halted then 0 else (h.acc + 60) / h.ips) :=
  ⟨{ vm := .started (inMode .modern), acc := 660, ips := 1 }, _, _, by decide, rfl, rfl, by decide⟩

/-- A state at the edge of the invariant: the largest `PC`, sixteen largest return addresses, a byte stored. -/
def edge : State :=
  { inMode .legacy with
    pc := 0x10FE#16, stack := Vector.replicate 16 0x1000#16, sp := 16, mem := [(0xFFF, 0x60#8)] }

theorem witness_StepKeepsInvariant : Inv edge ∧ ∃ t, step edge = .next t :=
  ⟨⟨by decide, by decide, by decide, by decide, by decide, by decide, by decide, by decide, by decide⟩, _, rfl⟩

/-- And a waiting state, so that the clause about the word at `PC` is not empty. -/
theorem witness_StepKeepsInvariant_waiting :
    ∃ s t : State, Inv s ∧ s.run = .waitingForKey ∧ step s = .next t :=
  ⟨((inMode .modern).withFetchWord 16 0xF10A).suspend 1#4, _,
    ⟨by decide, by decide, by decide, by decide, by decide, by decide, by decide, by decide, by decide⟩,
    by decide, rfl⟩

theorem witness_ReachableMeetsInvariant : ∃ s : State, Reachable (.started s) ∧ s.run = .halted :=
  ⟨_, .event .step (.started (bootState [] .modern)) _ (.event (.reset [] .modern) _ _ (.off 0) rfl) rfl,
    by decide⟩

end Sys2Proof.Tests
end

/-! ### Decoding finds the instruction's own word -/

namespace Sys2Proof

theorem word_of_nnn {w : Word} {k : BitVec 4} (hk : fieldKind w = k) : k ++ fieldNNN w = w := by
  subst hk; exact word_eq_nnn w

theorem word_of_xkk {w : Word} {k : BitVec 4} {kk : Byte} (hk : fieldKind w = k)
    (hkk : fieldKK w = kk) : k ++ fieldX w ++ kk = w := by
  subst hk hkk; exact word_eq_xkk w

theorem word_of_xyn {w : Word} {k : BitVec 4} {n : Nibble} (hk : fieldKind w = k)
    (hn : fieldN w = n) : k ++ fieldX w ++ fieldY w ++ n = w := by
  subst hk hn; exact word_eq_xyn w

theorem encode_of_decodeKind0 {w : Word} {i : Instr} (h : decodeKind0 w = .ok i) : encode i = w := by
  unfold decodeKind0 at h
  split_ifs at h with h1 h2
  · cases h; exact h1.symm
  · cases h; exact h2.symm

theorem encode_of_decodeKind5 {w : Word} {i : Instr} (hk : fieldKind w = 0x5#4)
    (h : decodeKind5 w = .ok i) : encode i = w := by
  unfold decodeKind5 at h
  split_ifs at h with hn
  cases h; exact word_of_xyn hk hn

theorem encode_of_decodeKind8 {w : Word} {i : Instr} (hk : fieldKind w = 0x8#4)
    (h : decodeKind8 w = .ok i) : encode i = w := by
  unfold decodeKind8 at h
  dsimp only at h
  split_ifs at h
  all_goals cases h; exact word_of_xyn hk ‹_›

theorem encode_of_decodeKind9 {w : Word} {i : Instr} (hk : fieldKind w = 0x9#4)
    (h : decodeKind9 w = .ok i) : encode i = w := by
  unfold decodeKind9 at h
  split_ifs at h with hn
  cases h; exact word_of_xyn hk hn

theorem encode_of_decodeKindE {w : Word} {i : Instr} (hk : fieldKind w = 0xE#4)
    (h : decodeKindE w = .ok i) : encode i = w := by
  unfold decodeKindE at h
  split_ifs at h with h1 h2
  · cases h; exact word_of_xkk hk h1
  · cases h; exact word_of_xkk hk h2

theorem encode_of_decodeKindF {w : Word} {i : Instr} (hk : fieldKind w = 0xF#4)
    (h : decodeKindF w = .ok i) : encode i = w := by
  unfold decodeKindF at h
  dsimp only at h
  split_ifs at h
  all_goals cases h; exact word_of_xkk hk ‹_›

/-- The word an instruction was decoded from is its encoding (R72, R74). -/
theorem encode_of_decode {w : Word} {i : Instr} (h : decode w = .ok i) : encode i = w := by
  have kind {k : BitVec 4} (hk : (fieldKind w).toNat = k.toNat) : fieldKind w = k :=
    BitVec.eq_of_toNat_eq hk
  unfold decode at h
  split at h
  case h_1 => exact encode_of_decodeKind0 h
  case h_6 hk => exact encode_of_decodeKind5 (kind hk) h
  case h_9 hk => exact encode_of_decodeKind8 (kind hk) h
  case h_10 hk => exact encode_of_decodeKind9 (kind hk) h
  case h_15 hk => exact encode_of_decodeKindE (kind hk) h
  case h_16 =>
    have hk : (fieldKind w).toNat = (0xF#4).toNat := by
      have := (fieldKind w).isLt
      simp only [imp_false, BitVec.toNat_ofNat] at *
      omega
    exact encode_of_decodeKindF (kind hk) h
  case h_14 hk => cases h; exact word_of_xyn (kind hk) rfl
  case h_2 hk | h_3 hk | h_11 hk | h_12 hk => cases h; exact word_of_nnn (kind hk)
  case h_4 hk | h_5 hk | h_7 hk | h_8 hk | h_13 hk => cases h; exact word_of_xkk (kind hk) rfl

end Sys2Proof

namespace Sys2Proof.Machine

/-! ### The bounds on `PC` and return addresses -/

theorem addrOperand_le (nnn : Addr) : (addrOperand nnn).toNat ≤ 0xFFF := by
  have := nnn.isLt
  simp only [addrOperand, BitVec.toNat_setWidth]
  omega

theorem byteOperand_le (b : Byte) : (byteOperand b).toNat ≤ 0xFF := by
  have := b.isLt
  simp only [byteOperand, BitVec.toNat_setWidth]
  omega

/-- The most `Bnnn` can jump to, `0xFFF + 0xFF` (R22, R107). -/
theorem addrOperand_add_byteOperand_le (nnn : Addr) (b : Byte) :
    (addrOperand nnn + byteOperand b).toNat ≤ 0x10FE := by
  have := addrOperand_le nnn
  have := byteOperand_le b
  rw [BitVec.toNat_add]
  omega

/-! ### One rule per operation: what keeps the invariant

The invariant reads `mem`, `pc`, `stack`, `run`, `waitReg` and the fault record. -/

section
variable {s t : State}

/-- The invariant sees nothing of the general registers, `I`, `SP`, the timers, the display, the keys, the mode and the draw number. -/
theorem Inv.update (hi : Inv s) {v : Vector Byte 16} {i : Word} {sp : Fin 17} {dt st : Byte}
    {fb : Display} {keys : Vector Bool 16} {compat : Compat} {n : Nat} :
    Inv { s with
      v := v, i := i, sp := sp, dt := dt, st := st, fb := fb, keys := keys, compat := compat,
      rndIndex := n } :=
  ⟨hi.memWf, hi.pcBound, hi.stackBound, hi.haltedIff, hi.haltedAddr, hi.cleanRecord, hi.kindLegal,
    hi.fetchFaultAddr, hi.waitingWord⟩

theorem Inv.faultKind_of_not_halted (hi : Inv s) (hr : s.run ≠ .halted) : s.faultKind = .none :=
  not_not.mp fun hk => hr (hi.haltedIff.mpr hk)

/-- The invariant of a running machine: the bounds, and a record with nothing in it. -/
theorem inv_iff_of_running (hr : s.run = .running) :
    Inv s ↔ s.mem.wf ∧ s.pc.toNat ≤ 0x10FE ∧ (∀ k : Fin 16, (s.stack[k.val]).toNat ≤ 0x1000)
      ∧ s.faultKind = .none ∧ s.faultWord = 0x0000#16 ∧ s.faultAddr = 0x0000#16 := by
  have hnh : s.run ≠ .halted := by simp [hr]
  constructor
  · intro hi
    exact ⟨hi.memWf, hi.pcBound, hi.stackBound, hi.faultKind_of_not_halted hnh, hi.cleanRecord hnh⟩
  · rintro ⟨hm, hp, hs, hk, hclean⟩
    exact ⟨hm, hp, hs, by simp [hr, hk], fun h => absurd h hnh, fun _ => hclean, by simp [hk],
      fun h => absurd h hnh, fun h => by simp [hr] at h⟩

theorem Inv.setPc (hi : Inv s) (hr : s.run = .running) {w : Word} (hw : w.toNat ≤ 0x10FE) :
    Inv (s.setPc w) := by
  obtain ⟨hm, -, hs, hrec⟩ := (inv_iff_of_running hr).mp hi
  exact (inv_iff_of_running (s := s.setPc w) hr).mpr ⟨hm, hw, hs, hrec⟩

theorem Inv.advance (hi : Inv s) (hr : s.run = .running) (hpc : s.pc.toNat < 0xFFF) :
    Inv s.advance :=
  hi.setPc hr (by bv_omega)

theorem Inv.skipIf (hi : Inv s) (hr : s.run = .running) (hpc : s.pc.toNat < 0xFFF) (c : Bool) :
    Inv (s.skipIf c) := by
  refine hi.setPc hr ?_
  cases c
  · rw [if_neg Bool.false_ne_true]; bv_omega
  · rw [if_pos rfl]; bv_omega

theorem Inv.setMem (hi : Inv s) (hr : s.run = .running) {m : Memory} (hm : m.wf) :
    Inv { s with mem := m } := by
  obtain ⟨-, hrest⟩ := (inv_iff_of_running hr).mp hi
  exact (inv_iff_of_running (s := { s with mem := m }) hr).mpr ⟨hm, hrest⟩

/-- A store that passed the bound of R52. -/
theorem Inv.storeBytes (hi : Inv s) (hr : s.run = .running) {a : Nat} {bs : List Byte}
    (hb : outsideMemory a bs.length = false) (hl : 1 ≤ bs.length) : Inv (s.storeBytes a bs) :=
  hi.setMem hr (Memory.wf_writeBytes hi.memWf (le_memSize_of_inBounds hb hl))

theorem Inv.push (hi : Inv s) (hr : s.run = .running) {w : Word} (hw : w.toNat ≤ 0x1000)
    (h : s.push? w = some t) : Inv t ∧ t.run = .running := by
  obtain ⟨-, -, hstack, ht⟩ := State.push?_eq_some s t w h
  obtain ⟨hm, hp, hs, hrec⟩ := (inv_iff_of_running hr).mp hi
  have hst : ∀ k : Fin 16, (t.stack[k.val]).toNat ≤ 0x1000 := by
    intro k
    rw [hstack k]
    split
    · exact hw
    · exact hs k
  have hrt : t.run = .running := by rw [ht]; exact hr
  refine ⟨(inv_iff_of_running hrt).mpr ?_, hrt⟩
  rw [ht]
  exact ⟨hm, hp, hst, hrec⟩

theorem Inv.pop (hi : Inv s) {w : Word} (h : s.pop? = some (w, t)) :
    Inv t ∧ t.run = s.run ∧ w.toNat ≤ 0x1000 := by
  obtain ⟨k, -, hw, -, ht⟩ := State.pop?_eq_some s t w h
  rw [ht, hw]
  exact ⟨hi.update, rfl, hi.stackBound k⟩

/-- Fault entry (R155), with the record of a fetch fault where `PC` allows no other (R92). -/
theorem Inv.raise (hi : Inv s) {k : FaultKind} {w : Word} (hk : k ≠ .none)
    (hl : k ≠ .programTooLarge)
    (hf : 0xFFF ≤ s.pc.toNat → k = .outOfBoundsAddress ∧ w = 0x0000#16) : Inv (s.raise k w) :=
  ⟨hi.memWf, hi.pcBound, hi.stackBound, by simp [hk], fun _ => rfl, fun h => absurd rfl h, hl,
    fun _ => hf, fun h => by simp at h⟩

/-- A fault below the fetch bound may be of any kind a step can raise. -/
theorem Inv.raise_of_lt (hi : Inv s) (hpc : s.pc.toNat < 0xFFF) {k : FaultKind} {w : Word}
    (hk : k ≠ .none) (hl : k ≠ .programTooLarge) : Inv (s.raise k w) :=
  hi.raise hk hl fun hge => absurd hpc (Nat.not_lt.mpr hge)

theorem Inv.resume (hi : Inv s) (hr : s.run ≠ .halted) : Inv s.resume :=
  (inv_iff_of_running rfl).mpr
    ⟨hi.memWf, hi.pcBound, hi.stackBound, hi.faultKind_of_not_halted hr, hi.cleanRecord hr⟩

theorem Inv.suspend (hi : Inv s) (hr : s.run ≠ .halted) {x : Reg}
    (hw : s.fetch? = some (encode (.ldVxK x))) : Inv (s.suspend x) :=
  ⟨hi.memWf, hi.pcBound, hi.stackBound, by simp [hi.faultKind_of_not_halted hr],
    fun h => by simp at h, fun _ => hi.cleanRecord hr, hi.kindLegal, fun h => by simp at h,
    fun _ => hw⟩

/-- A poll of the `Fx0A` at `PC`, whether it finds a key or suspends (R91). -/
theorem Inv.keyPoll (hi : Inv s) (hr : s.run ≠ .halted) {x : Reg}
    (hw : s.fetch? = some (encode (.ldVxK x))) : Inv (s.keyPoll x) := by
  rcases s.keyPoll_cases x with ⟨k, -, -, e⟩ | ⟨-, e⟩
  · -- resumed first, so that `PC` leaves the `Fx0A` in a machine that no longer waits
    rw [e]
    have hset : Inv (s.setV x (k.setWidth 8)).resume := hi.update.resume hr
    exact hset.advance rfl ((s.fetch?_eq_some_iff _).mp hw).1
  · rw [e]; exact hi.suspend hr hw

theorem Inv.timerPulse (hi : Inv s) : Inv s.timerPulse := by
  by_cases hr : s.run = .halted
  · rw [State.timerPulse_of_halted hr]; exact hi
  · rw [State.timerPulse_of_not_halted hr]; exact hi.update

theorem Inv.setKeys (hi : Inv s) (k : BitVec 16) : Inv (s.setKeys k) := hi.update

end

/-! ### Every instruction keeps the invariant -/

section
variable {s t : State} (hi : Inv s) (hr : s.run = .running) (hpc : s.pc.toNat < 0xFFF)
include hi hr hpc

theorem execRet_keeps_inv (h : execRet s = .next t) : Inv t := by
  unfold execRet at h
  split at h
  · cases h; exact hi.raise_of_lt hpc (by decide) (by decide)
  · next ra u hpop =>
    cases h
    obtain ⟨hu, hru, hra⟩ := hi.pop hpop
    exact hu.setPc (hru.trans hr) (hra.trans (by decide))

theorem execCall_keeps_inv {nnn : Addr} (h : execCall nnn s = .next t) : Inv t := by
  unfold execCall at h
  split at h
  · cases h; exact hi.raise_of_lt hpc (by decide) (by decide)
  · next u hpush =>
    cases h
    obtain ⟨hu, hru⟩ := hi.push hr (by bv_omega) hpush
    exact hu.setPc hru ((addrOperand_le nnn).trans (by decide))

theorem execDrw_keeps_inv {x y : Reg} {n : Nibble} (h : execDrw x y n s = .next t) : Inv t := by
  unfold execDrw at h
  split at h <;> cases h
  · exact hi.raise_of_lt hpc (by decide) (by decide)
  · exact hi.update.advance hr hpc

theorem execAddI_keeps_inv {x : Reg} (h : execAddI x s = .next t) : Inv t := by
  simp only [execAddI] at h
  split at h <;> cases h
  · exact hi.raise_of_lt hpc (by decide) (by decide)
  · exact hi.update.advance hr hpc

theorem execLdB_keeps_inv {x : Reg} (h : execLdB x s = .next t) : Inv t := by
  unfold execLdB at h
  split at h <;> cases h
  · exact hi.raise_of_lt hpc (by decide) (by decide)
  · next hb =>
    exact (hi.storeBytes hr (Bool.eq_false_of_not_eq_true hb)
      (by simp [decimalDigits])).advance hr hpc

theorem execStoreRegs_keeps_inv {x : Reg} (h : execStoreRegs x s = .next t) : Inv t := by
  unfold execStoreRegs at h
  split at h <;> cases h
  · exact hi.raise_of_lt hpc (by decide) (by decide)
  · next hb =>
    have hlen : (s.regBytes x).length = x.toNat + 1 := by simp [State.regBytes]
    have hstored : Inv (s.storeBytes s.index (s.regBytes x)) :=
      hi.storeBytes hr (by rw [hlen]; exact Bool.eq_false_of_not_eq_true hb) (by omega)
    exact hstored.update.advance hr hpc

theorem execLoadRegs_keeps_inv {x : Reg} (h : execLoadRegs x s = .next t) : Inv t := by
  unfold execLoadRegs at h
  split at h <;> cases h
  · exact hi.raise_of_lt hpc (by decide) (by decide)
  · exact hi.update.advance hr hpc

end

/-- Every instruction executed from its own word at `PC` keeps the invariant. -/
theorem exec_keeps_inv {s t : State} {i : Instr} (hi : Inv s) (hr : s.run = .running)
    (hw : s.fetch? = some (encode i)) (h : exec i s = .next t) : Inv t := by
  have hpc : s.pc.toNat < 0xFFF := ((s.fetch?_eq_some_iff _).mp hw).1
  cases i
  -- the instructions with a fault of their own
  case ret => exact execRet_keeps_inv hi hr hpc h
  case call nnn => exact execCall_keeps_inv hi hr hpc h
  case drw x y n => exact execDrw_keeps_inv hi hr hpc h
  case addI x => exact execAddI_keeps_inv hi hr hpc h
  case ldB x => exact execLdB_keeps_inv hi hr hpc h
  case storeRegs x => exact execStoreRegs_keeps_inv hi hr hpc h
  case loadRegs x => exact execLoadRegs_keeps_inv hi hr hpc h
  -- the jumps
  case jp nnn => cases h; exact hi.setPc hr ((addrOperand_le nnn).trans (by decide))
  case jpV0 nnn x => cases h; exact hi.setPc hr (addrOperand_add_byteOperand_le nnn _)
  -- the poll and the skips
  case ldVxK x => cases h; exact hi.keyPoll (by simp [hr]) hw
  case seImm | sneImm | seReg | sneReg | skp | sknp => cases h; exact hi.skipIf hr hpc _
  -- the others write what the invariant does not read, and go on to the next instruction
  all_goals cases h; exact hi.update.advance hr hpc

/-! ### Every step and every event keeps the invariant -/

theorem step_keeps_inv {s t : State} (hi : Inv s) (h : step s = .next t) : Inv t := by
  rcases step_cases s _ h with ⟨-, e⟩ | ⟨hr, e⟩ | ⟨-, -, e⟩ | ⟨-, hpc, -, e⟩ | ⟨i, hr, hpc, hd, e⟩
  · cases e; exact hi
  · cases e; exact hi.keyPoll (by simp [hr]) (hi.waitingWord hr)
  · cases e; exact hi.raise (by decide) (by decide) fun _ => ⟨rfl, rfl⟩
  · cases e; exact hi.raise_of_lt hpc (by decide) (by decide)
  · exact exec_keeps_inv hi hr ((s.fetch?_eq_some_iff _).mpr ⟨hpc, encode_of_decode hd⟩) e.symm

theorem inv_reset : Inv State.reset := by
  refine (inv_iff_of_running rfl).mpr ⟨State.reset_mem_wf, by decide, fun k => ?_, rfl, rfl, rfl⟩
  simp [State.reset]

/-- A program that fits leaves memory in canonical form, and the rest is the reset (R180). -/
theorem inv_bootState {program : List Byte} (hl : program.length ≤ maxProg) (c : Compat) (n : Nat) :
    Inv { bootState program c with rndIndex := n } := by
  have hm : (Memory.writeBytes [] progBase program).wf := by
    refine Memory.wf_writeBytes Memory.wf_nil ?_
    simp only [maxProg, progBase, memSize] at hl ⊢
    omega
  exact (inv_reset.setMem rfl hm).update

/-- The invariant of the machine as the host meets it: that of its state, where it has one. -/
def Vm.MeetsInv : Vm → Prop
  | .started s => Inv s
  | .notStarted _ _ => True

theorem deliver_keeps_meetsInv {m m' : Vm} {e : Event} (hm : m.MeetsInv)
    (h : m.deliver e = .next m') : m'.MeetsInv := by
  cases m' with
  | notStarted r n => trivial
  | started t =>
    rcases Vm.deliver_eq_started h with ⟨program, c, hl, rfl⟩ | ⟨s, rfl, hne, hd⟩
    · exact inv_bootState hl c m.rndIndex
    · have hi : Inv s := hm
      cases e with
      | reset program c => exact absurd rfl (hne program c)
      | step => exact step_keeps_inv hi hd
      | timerPulse => cases hd; exact hi.timerPulse
      | setKeys k => cases hd; exact hi.setKeys k

theorem Reachable.meetsInv {m : Vm} (h : Reachable m) : m.MeetsInv := by
  induction h with
  | off n => trivial
  | event e m m' _ hd ih => exact deliver_keeps_meetsInv ih hd

/-- Settles O60: no event takes a machine out of the invariant, an accepted `Reset` from any machine included. -/
theorem reachableMeetsInvariant : Obligations.ReachableMeetsInvariant := by
  unfold Obligations.ReachableMeetsInvariant
  exact fun s h => h.meetsInv

/-! ### The reference schedule -/

/-- The loop of R195 from any state: `acc / IPS` pulses, none in Halted. -/
theorem Scheduled.pulse_eq {ips : Nat} (hips : 1 ≤ ips) (acc : Nat) (s : State) {k : Nat}
    (hk : k = if s.run = .halted then 0 else acc / ips) :
    Scheduled.pulse ips acc acc s = (State.timerPulses k s, acc - k * ips) := by
  subst hk
  split
  · next hs => simp [Scheduled.pulse_of_halted ips acc acc hs, State.timerPulses]
  · next hs => exact Scheduled.pulse_of_not_halted hips acc acc le_rfl hs

theorem Scheduled.reset_of_deliver {program : List Byte} {c : Compat} {m m' : Vm}
    (h : m.deliver (.reset program c) = .next m') (ips : Nat) :
    Scheduled.reset program c m ips = .next { vm := m', acc := 0, ips := ips } := by
  simp only [Scheduled.reset, h]

theorem Scheduled.tick_of_step {keys : Option (BitVec 16)} {h : Scheduled} {s t : State}
    (hvm : h.vm = .started s) (hstep : step (s.setKeysIf keys) = .next t) :
    Scheduled.tick keys h = .next
      { vm := .started (Scheduled.pulse h.ips (h.acc + 60) (h.acc + 60) t).1,
        acc := (Scheduled.pulse h.ips (h.acc + 60) (h.acc + 60) t).2, ips := h.ips } := by
  simp only [Scheduled.tick, hvm, hstep]

/-- Settles O55: startup from the accepted `Reset`, and a tick from the closed form of R195's loop. -/
theorem scheduleCountsPulses : Obligations.ScheduleCountsPulses := by
  unfold Obligations.ScheduleCountsPulses
  constructor
  · intro program c m ips hl
    have hd := Vm.deliver_reset_of_fits m hl c
    exact ⟨_, hd, Scheduled.reset_of_deliver hd ips, Scheduled.reset_of_deliver hd defaultIps⟩
  · intro keys h s t k hips hvm hstep hk
    rw [Scheduled.tick_of_step hvm hstep, Scheduled.pulse_eq hips (h.acc + 60) t hk]

end Sys2Proof.Machine

namespace Sys2Proof.Machine

/-! ### What each instruction may write -/

/-- The parts an instruction may write in a mode (10_state.md R20 to R30): a key or the mode none, `PC`, the fault entry's parts, `WAIT_REG` and the draw number without restriction here. -/
def mayWrite (i : Instr) (c : Compat) : Part → Prop
  | .v r => writesV i r = true
  | .i => (∃ nnn, i = .ldI nnn) ∨ (∃ x, i = .addI x) ∨ (∃ x, i = .ldF x)
      ∨ (c = .legacy ∧ ∃ x, i = .storeRegs x ∨ i = .loadRegs x)
  | .stackEntry _ => ∃ nnn, i = .call nnn
  | .sp => i = .ret ∨ ∃ nnn, i = .call nnn
  | .dt => ∃ x, i = .ldDtVx x
  | .st => ∃ x, i = .ldStVx x
  | .byte _ => ∃ x, i = .ldB x ∨ i = .storeRegs x
  | .pixel _ _ => i = .cls ∨ ∃ x y n, i = .drw x y n
  | .key _ | .compat => False
  | .pc | .run | .waitReg | .faultKind | .faultWord | .faultAddr | .rndIndex => True

theorem Frame.push {s t : State} {w : Word} (h : s.push? w = some t) :
    Frame (fun p => p = .sp ∨ ∃ k, p = .stackEntry k) s t := by
  obtain ⟨-, -, -, ht⟩ := State.push?_eq_some s t w h
  rw [ht]
  intro p hp
  cases p
  case sp | stackEntry => simp at hp
  all_goals rfl

theorem Frame.pop {s t : State} {w : Word} (h : s.pop? = some (w, t)) :
    Frame (fun p => p = .sp) s t := by
  obtain ⟨-, -, -, -, ht⟩ := State.pop?_eq_some s t w h
  rw [ht]
  intro p hp
  cases p
  case sp => simp at hp
  all_goals rfl

theorem Frame.keyPoll (s : State) (r : Reg) :
    Frame (fun p => p = .v r ∨ p = .pc ∨ p = .run ∨ p = .waitReg) s (s.keyPoll r) := by
  rcases s.keyPoll_cases r with ⟨k, -, -, e⟩ | ⟨-, e⟩
  · rw [e]
    exact (((Frame.setV s r _).trans (Frame.advance _)).trans (Frame.resume _)).mono (by tauto)
  · rw [e]
    exact (Frame.suspend s r).mono (by tauto)

/-- `I` after `Fx55` and `Fx65`: kept in Modern mode (R129, R130). -/
theorem Frame.trans_setI_indexAfter {P : Part → Prop} {s u : State} (h : Frame P s u)
    (hu : u.i = s.i) (x : Reg) :
    Frame (fun p => P p ∨ (p = .i ∧ s.compat = .legacy)) s (u.setI (s.indexAfter x)) := by
  cases hc : s.compat with
  | legacy => exact (h.trans (Frame.setI u _)).mono (by simp)
  | modern =>
    have hkept : u.setI (s.indexAfter x) = u := by
      simp only [State.indexAfter, hc, ← hu]; rfl
    rw [hkept]
    exact h.mono fun _ => .inl

/-- Fault entry (R155) writes only what every instruction may. -/
theorem mayWrite_of_ofFault {i : Instr} {c : Compat} (p : Part) (h : Part.ofFault p) :
    mayWrite i c p := by
  cases p <;> trivial

/-- The frame of every instruction, faulting or not: composed from the frames of the operations it is made of. -/
theorem exec_frame {i : Instr} {s t : State} (h : exec i s = .next t) :
    Frame (mayWrite i s.compat) s t := by
  have fault (k : FaultKind) : Frame (mayWrite i s.compat) s (s.raise k (encode i)) :=
    (Frame.raise s k _).mono mayWrite_of_ofFault
  cases i
  case cls =>
    cases h
    exact ((Frame.setFb s _).trans (Frame.advance _)).mono (by grind [mayWrite])
  case ret =>
    simp only [exec, execRet] at h
    split at h <;> cases h
    · exact fault _
    · next hpop => exact ((Frame.pop hpop).trans (Frame.setPc _ _)).mono (by grind [mayWrite])
  case call nnn =>
    simp only [exec, execCall] at h
    split at h <;> cases h
    · exact fault _
    · next hpush => exact ((Frame.push hpush).trans (Frame.setPc _ _)).mono (by grind [mayWrite])
  case jp | jpV0 =>
    cases h
    exact (Frame.setPc s _).mono (by grind [mayWrite])
  case seImm | sneImm | seReg | sneReg | skp | sknp =>
    cases h
    exact (Frame.skipIf s _).mono (by grind [mayWrite])
  case ldImm | addImm | ldReg | orReg | andReg | xorReg | ldVxDt =>
    cases h
    exact ((Frame.setV s _ _).trans (Frame.advance _)).mono (by grind [mayWrite, writesV])
  case addReg | subReg | shr | subn | shl =>
    cases h
    exact ((Frame.setFlagged s _ _).trans (Frame.advance _)).mono (by grind [mayWrite, writesV])
  case rnd =>
    cases h
    exact (((Frame.setV s _ _).trans (Frame.nextDraw _)).trans (Frame.advance _)).mono
      (by grind [mayWrite, writesV])
  case drw =>
    simp only [exec, execDrw] at h
    split at h <;> cases h
    · exact fault _
    · exact (((Frame.setFb s _).trans (Frame.setV _ _ _)).trans (Frame.advance _)).mono
        (by grind [mayWrite, writesV])
  case ldVxK =>
    cases h
    exact (Frame.keyPoll s _).mono (by grind [mayWrite, writesV])
  case ldDtVx =>
    cases h
    exact ((Frame.setDt s _).trans (Frame.advance _)).mono (by grind [mayWrite])
  case ldStVx =>
    cases h
    exact ((Frame.setSt s _).trans (Frame.advance _)).mono (by grind [mayWrite])
  case ldI | ldF =>
    cases h
    exact ((Frame.setI s _).trans (Frame.advance _)).mono (by grind [mayWrite])
  case addI =>
    simp only [exec, execAddI] at h
    split at h <;> cases h
    · exact fault _
    · exact ((Frame.setI s _).trans (Frame.advance _)).mono (by grind [mayWrite])
  case ldB =>
    simp only [exec, execLdB] at h
    split at h <;> cases h
    · exact fault _
    · exact ((Frame.storeBytes s _ _).trans (Frame.advance _)).mono (by grind [mayWrite])
  case storeRegs x =>
    simp only [exec, execStoreRegs] at h
    split at h <;> cases h
    · exact fault _
    · exact (((Frame.storeBytes s _ _).trans_setI_indexAfter (s.storeBytes_i _ _) x).trans
        (Frame.advance _)).mono (by grind [mayWrite])
  case loadRegs x =>
    simp only [exec, execLoadRegs] at h
    split at h <;> obtain rfl := Host.Outcome.next.inj h
    · exact fault _
    · exact (((Frame.setVUpTo s _ _).trans_setI_indexAfter (s.setVUpTo_i x _) x).trans
        (Frame.advance _)).mono (by grind [mayWrite, writesV])

/-- Settles O44: each clause is a part of the instruction's frame. -/
theorem eachPartHasItsWriters : Obligations.EachPartHasItsWriters := by
  unfold Obligations.EachPartHasItsWriters
  intro i s t h
  have hf := exec_frame h
  refine ⟨fun k => hf (.key k) id, hf .compat id, fun hne => hf .dt ?_, fun hne => hf .st ?_,
    fun hne => Vector.ext fun k hk => hf (.stackEntry ⟨k, hk⟩) ?_, fun hcall hret => hf .sp ?_,
    fun hB hst a => hf (.byte a) ?_, fun hcls hdrw y x => hf (.pixel y x) ?_,
    fun hI hadd hF hmode => hf .i ?_⟩
  · rintro ⟨x, e⟩; exact hne x e
  · rintro ⟨x, e⟩; exact hne x e
  · rintro ⟨nnn, e⟩; exact hne nnn e
  · rintro (e | ⟨nnn, e⟩)
    · exact hret e
    · exact hcall nnn e
  · rintro ⟨x, e | e⟩
    · exact hB x e
    · exact hst x e
  · rintro (e | ⟨x, y, n, e⟩)
    · exact hcls e
    · exact hdrw x y n e
  · rintro (⟨nnn, e⟩ | ⟨x, e⟩ | ⟨x, e⟩ | ⟨hleg, x, e⟩)
    · exact hI nnn e
    · exact hadd x e
    · exact hF x e
    · rcases hmode with ⟨hst, hld⟩ | hmod
      · exact e.elim (hst x) (hld x)
      · rw [hmod] at hleg; cases hleg

/-! ### The flag register -/

theorem flagByte_eq (c : Bool) : flagByte c = 0x00#8 ∨ flagByte c = 0x01#8 := by
  cases c
  · exact .inl rfl
  · exact .inr rfl

theorem State.getV_setFlagged_regF (s : State) (x : Reg) (r : Flagged) :
    (s.setFlagged x r).getV regF = flagByte r.flag := by
  rw [State.getV_setFlagged, if_pos rfl]

/-- A draw that does not fault writes the collision to `VF` (R136). -/
theorem getV_regF_of_execDrw {x y : Reg} {n : Nibble} {s t : State}
    (hf : instrFault (.drw x y n) s = none) (h : execDrw x y n s = .next t) :
    t.getV regF = flagByte (s.drawn x y n).collision := by
  have hin : ¬ outsideMemory s.index n.toNat = true := fun hout => by
    cases hf.symm.trans (if_pos ((outsideMemory_iff _ _).mp hout))
  rw [execDrw, if_neg hin] at h
  cases h
  simp

/-- Settles O45: registers by the instruction's frame, the flag writers by what `VF` is given. -/
theorem registersWrittenOnlyByDestination : Obligations.RegistersWrittenOnlyByDestination := by
  unfold Obligations.RegistersWrittenOnlyByDestination
  intro i s t h
  constructor
  · intro r hr
    exact exec_frame h (.v r) (by simp [mayWrite, hr])
  · intro x y hi
    have hflag : ∃ c, t.getV regF = flagByte c := by
      rcases hi with rfl | rfl | rfl | rfl | rfl | ⟨n, rfl, hn⟩
      case inr.inr.inr.inr.inr => exact ⟨_, getV_regF_of_execDrw hn h⟩
      all_goals cases h; exact ⟨_, State.getV_setFlagged_regF s x _⟩
    obtain ⟨c, hc⟩ := hflag
    exact hc ▸ flagByte_eq c

/-! ### The reset contents -/

/-- The font lies wholly below the program (R10, decision D15). -/
theorem fontBase_add_length_le : Config.fontBase.val + fontData.length ≤ progBase := by
  have hb := Config.fontBase.isLt
  have hl : fontData.length = 80 := rfl
  simp only [progBase]
  omega

theorem Memory.resetByte_font {k : Nat} (h : k < fontData.length) :
    Memory.resetByte (Config.fontBase.val + k) = fontData[k] := by
  have hb := fontBase_add_length_le
  rw [Memory.resetByte, if_neg (by omega), fontByteAt, if_pos (by omega), Nat.add_sub_cancel_left,
    List.getElem?_eq_getElem h, Option.getD_some]

theorem Memory.resetByte_outside_font {a : Nat}
    (h : a < Config.fontBase.val ∨ Config.fontBase.val + fontData.length ≤ a) :
    Memory.resetByte a = 0x00#8 := by
  unfold Memory.resetByte fontByteAt
  split_ifs with hp hb
  · rfl
  · rw [List.getElem?_eq_none (by omega), Option.getD_none]
  · rfl

/-- The byte of the started machine's memory: the program's, or what an unlisted address reads as. -/
theorem bootState_readByte (program : List Byte) (c : Compat) (a : Nat) :
    (bootState program c).readByte a =
      if progBase ≤ a ∧ a < progBase + program.length then (program[a - progBase]?).getD 0x00#8
      else Memory.resetByte a :=
  Memory.read_writeBytes [] progBase a program

theorem bootState_readByte_program {program : List Byte} (c : Compat) {k : Nat}
    (h : k < program.length) : (bootState program c).readByte (progBase + k) = program[k] := by
  rw [bootState_readByte, if_pos (by omega), Nat.add_sub_cancel_left, List.getElem?_eq_getElem h,
    Option.getD_some]

theorem bootState_readByte_outside {program : List Byte} (c : Compat) {a : Nat}
    (h : a < progBase ∨ progBase + program.length ≤ a) :
    (bootState program c).readByte a = Memory.resetByte a := by
  rw [bootState_readByte, if_neg (by omega)]

@[simp] theorem State.reset_getV (r : Reg) : State.reset.getV r = 0x00#8 := by
  simp [State.getV, State.reset]

@[simp] theorem State.reset_stack (k : Fin 16) : State.reset.stack[k.val] = 0x0000#16 := by
  simp [State.reset]

@[simp] theorem State.reset_keyDown (k : Reg) : State.reset.keyDown k = false := by
  simp [State.keyDown, State.reset]

@[simp] theorem State.reset_pixel (y : Fin 32) (x : Fin 64) : State.reset.fb.pixel y x = false :=
  Display.pixel_blank y x

/-- Settles O53: the program from the write, font and zero bytes from the reset contents, the rest from `State.reset`. -/
theorem resetLoadsProgramOrRefuses : Obligations.ResetLoadsProgramOrRefuses := by
  unfold Obligations.ResetLoadsProgramOrRefuses
  intro program c s
  constructor
  · intro hl
    refine ⟨_, resetEvent_of_fits hl c s.rndIndex, ?_, ?_, ?_, State.reset_getV, rfl, rfl, rfl,
      State.reset_stack, rfl, rfl, State.reset_pixel, State.reset_keyDown, rfl, rfl, rfl, rfl, rfl,
      rfl⟩
    · intro k hk
      exact bootState_readByte_program c hk
    · intro k hk
      have hb := fontBase_add_length_le
      exact (bootState_readByte_outside c (.inl (by omega))).trans (Memory.resetByte_font hk)
    · intro a _ hfont hprog
      exact (bootState_readByte_outside c hprog).trans (Memory.resetByte_outside_font hfont)
  · intro hl
    exact resetEvent_of_too_large hl c s.rndIndex

/-- Settles O56: the values of `State.reset`. -/
theorem resetStateValues : Obligations.ResetStateValues := by
  unfold Obligations.ResetStateValues
  exact ⟨State.reset_getV, rfl, rfl, rfl, State.reset_stack, rfl, rfl, rfl, rfl⟩

/-! ### Keys and display port -/

/-- Settles O52: the bit of each key, and the frame of `setKeys`. -/
theorem setKeysWritesKeysOnly : Obligations.SetKeysWritesKeysOnly := by
  unfold Obligations.SetKeysWritesKeysOnly
  exact fun k s => ⟨_, rfl, s.keyDown_setKeys k, Frame.setKeys s k⟩

/-- Settles O57: the bit number divides by the row length into row and column. -/
theorem displayPortIsLinear : Obligations.DisplayPortIsLinear := by
  unfold Obligations.DisplayPortIsLinear
  intro s y x
  have hrow : (64 * y.val + x.val) / 64 = y.val := by omega
  have hcol : (64 * y.val + x.val) % 64 = x.val := by omega
  rw [State.displayPort, Vector.getElem?_flatten, dif_pos (by omega)]
  simp only [hrow, hcol, Display.pixel]

/-! ### The invariant at reset and after a step -/

/-- Settles O58. -/
theorem resetMeetsInvariant : Obligations.ResetMeetsInvariant := by
  unfold Obligations.ResetMeetsInvariant
  exact inv_reset

/-- Settles O59, by the cases of a step: nothing, the poll, the two faults before an instruction, the instruction. -/
theorem stepKeepsInvariant : Obligations.StepKeepsInvariant := by
  unfold Obligations.StepKeepsInvariant
  exact fun s t hi h => step_keeps_inv hi h

end Sys2Proof.Machine

namespace Sys2Proof.Machine

/-! ### The bytes `Fx55` stores -/

@[simp] theorem State.length_regBytes (s : State) (x : Reg) :
    (s.regBytes x).length = x.toNat + 1 := by
  simp [State.regBytes]

theorem State.getElem?_regBytes (s : State) {x r : Reg} (h : r.toNat ≤ x.toNat) :
    (s.regBytes x)[r.toNat]? = some (s.getV r) := by
  have hr : r.toNat < x.toNat + 1 := by omega
  simp [State.regBytes, List.getElem?_range hr]

theorem exec_storeRegs_of_inBounds {x : Reg} {s : State} (h : s.i.toNat + x.toNat ≤ 0xFFF) :
    exec (.storeRegs x) s =
      .next ((s.storeBytes s.index (s.regBytes x)).setI (s.indexAfter x)).advance := by
  have hin : ¬ outsideMemory s.index (x.toNat + 1) = true := by
    rw [outsideMemory_iff, State.index]
    omega
  exact if_neg hin

/-- Each register from `V[0]` to `V[x]` is read back at its place from `I` up (R129). -/
theorem State.readByte_storeBytes_regBytes (s : State) {x r : Reg} (h : r.toNat ≤ x.toNat) :
    (s.storeBytes s.index (s.regBytes x)).readByte (s.i.toNat + r.toNat) = s.getV r := by
  have hin : s.index ≤ s.i.toNat + r.toNat
      ∧ s.i.toNat + r.toNat < s.index + (s.regBytes x).length := by
    rw [State.length_regBytes, State.index]
    omega
  rw [State.readByte_storeBytes, if_pos hin, State.index, Nat.add_sub_cancel_left,
    s.getElem?_regBytes h, Option.getD_some]

/-- Settles O36: both bytes at the next `PC` lie in the stored range and read as `V[r]` and `V[r + 1]`. -/
theorem fetchSeesTheStore : Obligations.FetchSeesTheStore := by
  unfold Obligations.FetchSeesTheStore
  intro x r s hmem hr hpc
  refine ⟨_, exec_storeRegs_of_inBounds hmem, (State.fetch?_eq_some_iff _ _).mpr ?_⟩
  have hsucc : (r + 1).toNat = r.toNat + 1 := by bv_omega
  have hhi := s.readByte_storeBytes_regBytes (x := x) (r := r) (by omega)
  have hlo := s.readByte_storeBytes_regBytes (x := x) (r := r + 1) (by omega)
  rw [hsucc, ← Nat.add_assoc] at hlo
  constructor
  · simp only [State.advance_pc, State.setI_pc, State.storeBytes_pc, hpc]
    omega
  · simp only [State.wordAtPc, State.advance_pc, State.setI_pc, State.storeBytes_pc, hpc,
      State.advance_readByte, State.setI_readByte, hhi, hlo, wordOfBytes]

end Sys2Proof.Machine

namespace Sys2Proof

/-! ### The fields of a word that matches a row -/

theorem covers_iff {r : OpcodeRow} {w : Word} : r.covers w = true ↔ w &&& r.mask = r.pattern :=
  beq_iff_eq

theorem fieldKind_and (v w : Word) : fieldKind (v &&& w) = fieldKind v &&& fieldKind w :=
  BitVec.extractLsb'_and

theorem fieldN_and (v w : Word) : fieldN (v &&& w) = fieldN v &&& fieldN w :=
  BitVec.extractLsb'_and

theorem fieldKK_and (v w : Word) : fieldKK (v &&& w) = fieldKK v &&& fieldKK w :=
  BitVec.extractLsb'_and

theorem fieldKind_of_covers {r : OpcodeRow} {w : Word} (h : r.covers w = true)
    (hm : fieldKind r.mask = BitVec.allOnes 4) : fieldKind w = fieldKind r.pattern := by
  rw [← covers_iff.mp h, fieldKind_and, hm, BitVec.and_allOnes]

theorem fieldN_of_covers {r : OpcodeRow} {w : Word} (h : r.covers w = true)
    (hm : fieldN r.mask = BitVec.allOnes 4) : fieldN w = fieldN r.pattern := by
  rw [← covers_iff.mp h, fieldN_and, hm, BitVec.and_allOnes]

theorem fieldKK_of_covers {r : OpcodeRow} {w : Word} (h : r.covers w = true)
    (hm : fieldKK r.mask = BitVec.allOnes 8) : fieldKK w = fieldKK r.pattern := by
  rw [← covers_iff.mp h, fieldKK_and, hm, BitVec.and_allOnes]

theorem eq_pattern_of_covers {r : OpcodeRow} {w : Word} (h : r.covers w = true)
    (hm : r.mask = BitVec.allOnes 16) : w = r.pattern := by
  rw [← covers_iff.mp h, hm, BitVec.and_allOnes]

/-! ### Decoding by row -/

/-- The instruction of the same row with the word's fields as its operands (R71, R72). -/
def Instr.withFieldsOf (w : Word) : Instr → Instr
  | .cls => .cls
  | .ret => .ret
  | .jp _ => .jp (fieldNNN w)
  | .call _ => .call (fieldNNN w)
  | .seImm _ _ => .seImm (fieldX w) (fieldKK w)
  | .sneImm _ _ => .sneImm (fieldX w) (fieldKK w)
  | .seReg _ _ => .seReg (fieldX w) (fieldY w)
  | .ldImm _ _ => .ldImm (fieldX w) (fieldKK w)
  | .addImm _ _ => .addImm (fieldX w) (fieldKK w)
  | .ldReg _ _ => .ldReg (fieldX w) (fieldY w)
  | .orReg _ _ => .orReg (fieldX w) (fieldY w)
  | .andReg _ _ => .andReg (fieldX w) (fieldY w)
  | .xorReg _ _ => .xorReg (fieldX w) (fieldY w)
  | .addReg _ _ => .addReg (fieldX w) (fieldY w)
  | .subReg _ _ => .subReg (fieldX w) (fieldY w)
  | .shr _ _ => .shr (fieldX w) (fieldY w)
  | .subn _ _ => .subn (fieldX w) (fieldY w)
  | .shl _ _ => .shl (fieldX w) (fieldY w)
  | .sneReg _ _ => .sneReg (fieldX w) (fieldY w)
  | .ldI _ => .ldI (fieldNNN w)
  | .jpV0 _ _ => .jpV0 (fieldNNN w) (fieldX w)
  | .rnd _ _ => .rnd (fieldX w) (fieldKK w)
  | .drw _ _ _ => .drw (fieldX w) (fieldY w) (fieldN w)
  | .skp _ => .skp (fieldX w)
  | .sknp _ => .sknp (fieldX w)
  | .ldVxDt _ => .ldVxDt (fieldX w)
  | .ldVxK _ => .ldVxK (fieldX w)
  | .ldDtVx _ => .ldDtVx (fieldX w)
  | .ldStVx _ => .ldStVx (fieldX w)
  | .addI _ => .addI (fieldX w)
  | .ldF _ => .ldF (fieldX w)
  | .ldB _ => .ldB (fieldX w)
  | .storeRegs _ => .storeRegs (fieldX w)
  | .loadRegs _ => .loadRegs (fieldX w)

@[simp] theorem Instr.row_withFieldsOf (w : Word) (i : Instr) : (i.withFieldsOf w).row = i.row := by
  cases i <;> rfl

/-- Only `Bnnn` has overlapping fields, and they agree in every word (R72). -/
theorem Instr.wellFormed_withFieldsOf (w : Word) (i : Instr) :
    (i.withFieldsOf w).wellFormed = true := by
  cases i
  case jpV0 => exact beq_iff_eq.mpr (fieldX_eq_of_nnn w)
  all_goals rfl

/-- A well-formed instruction has the fields of its own word as its operands. -/
theorem Instr.withFieldsOf_encode {i : Instr} (hi : i.wellFormed = true) :
    i.withFieldsOf (encode i) = i := by
  cases i
  case jpV0 nnn x =>
    have hx : x = nnn.extractLsb' 8 4 := beq_iff_eq.mp hi
    simp [withFieldsOf, encode, hx]
  all_goals simp [withFieldsOf, encode]

/-- A word that matches an instruction's row decodes to that row's instruction, with the operands the word holds (R74, R77). -/
theorem decode_of_covers {i : Instr} {w : Word} (h : i.row.covers w = true) :
    decode w = .ok (i.withFieldsOf w) := by
  cases i
  -- fixed words
  case cls | ret => rw [eq_pattern_of_covers (r := ⟨0xFFFF, _⟩) h (by decide)]; rfl
  -- the kinds that hold one row
  case jp | call | ldI | jpV0 | seImm | sneImm | ldImm | addImm | rnd | drw =>
    have hk := fieldKind_of_covers (r := ⟨0xF000, _⟩) h (by decide)
    rw [decode, hk]
    simp [fieldKind, Instr.withFieldsOf]
  -- the rows told apart by `n`
  case seReg =>
    have hk : fieldKind w = 0x5#4 := fieldKind_of_covers (r := ⟨0xF00F, _⟩) h (by decide)
    have hn : fieldN w = 0x0#4 := fieldN_of_covers (r := ⟨0xF00F, _⟩) h (by decide)
    simp [decode, hk, decodeKind5, hn, Instr.withFieldsOf]
  case sneReg =>
    have hk : fieldKind w = 0x9#4 := fieldKind_of_covers (r := ⟨0xF00F, _⟩) h (by decide)
    have hn : fieldN w = 0x0#4 := fieldN_of_covers (r := ⟨0xF00F, _⟩) h (by decide)
    simp [decode, hk, decodeKind9, hn, Instr.withFieldsOf]
  case ldReg | orReg | andReg | xorReg | addReg | subReg | shr | subn | shl =>
    have hk : fieldKind w = 0x8#4 := fieldKind_of_covers (r := ⟨0xF00F, _⟩) h (by decide)
    have hn := fieldN_of_covers (r := ⟨0xF00F, _⟩) h (by decide)
    simp +decide [decode, hk, decodeKind8, hn, Instr.withFieldsOf]
  -- the rows told apart by `kk`
  case skp | sknp =>
    have hk : fieldKind w = 0xE#4 := fieldKind_of_covers (r := ⟨0xF0FF, _⟩) h (by decide)
    have hkk := fieldKK_of_covers (r := ⟨0xF0FF, _⟩) h (by decide)
    simp +decide [decode, hk, decodeKindE, hkk, Instr.withFieldsOf]
  case ldVxDt | ldVxK | ldDtVx | ldStVx | addI | ldF | ldB | storeRegs | loadRegs =>
    have hk : fieldKind w = 0xF#4 := fieldKind_of_covers (r := ⟨0xF0FF, _⟩) h (by decide)
    have hkk := fieldKK_of_covers (r := ⟨0xF0FF, _⟩) h (by decide)
    simp +decide [decode, hk, decodeKindF, hkk, Instr.withFieldsOf]

section
open Laws.MatchesRow

theorem row_covers_encode (i : Instr) : i.row.covers (encode i) = true := by
  cases i
  exacts [cls, ret, jp _, call _, seImm _ _, sneImm _ _, seReg _ _, ldImm _ _, addImm _ _,
    ldReg _ _, orReg _ _, andReg _ _, xorReg _ _, addReg _ _, subReg _ _, shr _ _, subn _ _,
    shl _ _, sneReg _ _, ldI _, jpV0 _ _, rnd _ _, drw _ _ _, skp _, sknp _, ldVxDt _, ldVxK _,
    ldDtVx _, ldStVx _, addI _, ldF _, ldB _, storeRegs _, loadRegs _]

end

/-! ### The round trips -/

theorem decode_encode {i : Instr} (hi : i.wellFormed = true) : decode (encode i) = .ok i := by
  rw [decode_of_covers (row_covers_encode i), Instr.withFieldsOf_encode hi]

theorem decodeBytes_of_decode {w : Word} {i : Instr} (h : decode w = .ok i) (rest : List Byte) :
    decodeBytes (highByte w :: lowByte w :: rest) = .ok (i, rest) := by
  rw [decodeBytes, wordOfBytes_bytes, h]

theorem covers_of_decode {w : Word} {i : Instr} (h : decode w = .ok i) : i.row.covers w = true :=
  encode_of_decode h ▸ row_covers_encode i

theorem eq_withFieldsOf_of_decode {w : Word} {i : Instr} (h : decode w = .ok i) :
    i = i.withFieldsOf w :=
  Except.ok.inj (h.symm.trans (decode_of_covers (covers_of_decode h)))

theorem wellFormed_of_decode {w : Word} {i : Instr} (h : decode w = .ok i) : i.wellFormed = true := by
  rw [eq_withFieldsOf_of_decode h]
  exact i.wellFormed_withFieldsOf w

/-- Settles O2: the encoding matches the instruction's row, and its fields are the operands. -/
theorem decodeOfEncode : Obligations.DecodeOfEncode := by
  unfold Obligations.DecodeOfEncode
  exact fun i hi => ⟨decode_encode hi, decodeBytes_of_decode (decode_encode hi)⟩

/-- Settles O3: the fields of one word always agree, and put together they are that word. -/
theorem encodeOfDecode : Obligations.EncodeOfDecode := by
  unfold Obligations.EncodeOfDecode
  exact fun w i h => ⟨wellFormed_of_decode h, encode_of_decode h⟩

/-! ### The opcode map -/

theorem row_covers_iff (i : Instr) (w : Word) :
    i.row.covers w = true ↔ ∃ j, decode w = .ok j ∧ j.row = i.row := by
  constructor
  · exact fun h => ⟨_, decode_of_covers h, i.row_withFieldsOf w⟩
  · rintro ⟨j, hj, e⟩
    exact e ▸ covers_of_decode hj

/-- A word matches at most one row: it decodes to an instruction of each row it matches. -/
theorem row_eq_of_covers {i j : Instr} {w : Word} (hi : i.row.covers w = true)
    (hj : j.row.covers w = true) : i.row = j.row := by
  have e : i.withFieldsOf w = j.withFieldsOf w :=
    Except.ok.inj ((decode_of_covers hi).symm.trans (decode_of_covers hj))
  rw [← i.row_withFieldsOf w, e, j.row_withFieldsOf]

/-- Settles O4: a row of the map is the row of an instruction. -/
theorem wordMatchesRowIffDecodes : Obligations.WordMatchesRowIffDecodes := by
  unfold Obligations.WordMatchesRowIffDecodes
  intro w
  refine ⟨fun j _ => row_covers_iff j w, fun r hr r' hr' h h' => ?_⟩
  obtain ⟨i, -, rfl⟩ := List.mem_map.mp hr
  obtain ⟨j, -, rfl⟩ := List.mem_map.mp hr'
  exact row_eq_of_covers h h'

/-! ### The unknown words -/

/-- The sixteen kinds, first the six in which `n`, `kk` or the whole word decides (R74). -/
theorem fieldKind_cases (w : Word) :
    fieldKind w = 0x0#4 ∨ fieldKind w = 0x5#4 ∨ fieldKind w = 0x8#4 ∨ fieldKind w = 0x9#4
      ∨ fieldKind w = 0xE#4 ∨ fieldKind w = 0xF#4
      ∨ fieldKind w = 0x1#4 ∨ fieldKind w = 0x2#4 ∨ fieldKind w = 0x3#4 ∨ fieldKind w = 0x4#4
      ∨ fieldKind w = 0x6#4 ∨ fieldKind w = 0x7#4 ∨ fieldKind w = 0xA#4 ∨ fieldKind w = 0xB#4
      ∨ fieldKind w = 0xC#4 ∨ fieldKind w = 0xD#4 := by
  generalize fieldKind w = k
  decide +revert

/-- The answer to a word: unknown exactly when `p`, and an instruction otherwise. -/
def UnknownIff (w : Word) (r : Except DecodeError Instr) (p : Prop) : Prop :=
  ((∃ i, r = .ok i) ∨ r = .error (.unknownOpcode w)) ∧ (r = .error (.unknownOpcode w) ↔ p)

theorem unknownIff_ok {w : Word} {i : Instr} : UnknownIff w (.ok i) False :=
  ⟨.inl ⟨i, rfl⟩, by simp⟩

theorem unknownIff_error {w : Word} : UnknownIff w (.error (.unknownOpcode w)) True :=
  ⟨.inr rfl, by simp⟩

/-- One more row before the others: its words are taken from the unknown ones. -/
theorem UnknownIff.row {w : Word} {r : Except DecodeError Instr} {p c : Prop} [Decidable c]
    {i : Instr} (h : UnknownIff w r p) : UnknownIff w (if c then .ok i else r) (¬ c ∧ p) := by
  by_cases hc : c
  · simpa [hc] using unknownIff_ok
  · simpa [hc] using h

theorem UnknownIff.of_iff {w : Word} {r : Except DecodeError Instr} {p q : Prop}
    (h : UnknownIff w r p) (hpq : p ↔ q) : UnknownIff w r q :=
  propext hpq ▸ h

theorem decodeKind0_unknownIff (w : Word) :
    UnknownIff w (decodeKind0 w) (w ≠ 0x00E0#16 ∧ w ≠ 0x00EE#16) :=
  unknownIff_error.row.row.of_iff (by simp)

theorem decodeKind5_unknownIff (w : Word) : UnknownIff w (decodeKind5 w) (fieldN w ≠ 0x0#4) :=
  unknownIff_error.row.of_iff (by simp)

/-- The unused values of `n` in kind 8 are what its nine rows leave of the sixteen. -/
theorem decodeKind8_unknownIff (w : Word) :
    UnknownIff w (decodeKind8 w)
      (fieldN w ∈ [0x8#4, 0x9#4, 0xA#4, 0xB#4, 0xC#4, 0xD#4, 0xF#4]) := by
  have hn : ∀ n : Nibble, n ∉ [0x0#4, 0x1#4, 0x2#4, 0x3#4, 0x4#4, 0x5#4, 0x6#4, 0x7#4, 0xE#4]
      ↔ n ∈ [0x8#4, 0x9#4, 0xA#4, 0xB#4, 0xC#4, 0xD#4, 0xF#4] := by decide
  rw [← hn]
  exact unknownIff_error.row.row.row.row.row.row.row.row.row.of_iff (by simp)

theorem decodeKind9_unknownIff (w : Word) : UnknownIff w (decodeKind9 w) (fieldN w ≠ 0x0#4) :=
  unknownIff_error.row.of_iff (by simp)

theorem decodeKindE_unknownIff (w : Word) :
    UnknownIff w (decodeKindE w) (fieldKK w ∉ [0x9E#8, 0xA1#8]) :=
  unknownIff_error.row.row.of_iff (by simp)

theorem decodeKindF_unknownIff (w : Word) :
    UnknownIff w (decodeKindF w) (fieldKK w ∉
      [0x07#8, 0x0A#8, 0x15#8, 0x18#8, 0x1E#8, 0x29#8, 0x33#8, 0x55#8, 0x65#8]) :=
  unknownIff_error.row.row.row.row.row.row.row.row.row.of_iff (by simp)

/-- Settles O5: by kind, what its part of the decoder leaves unknown; the other ten kinds are one row each. -/
theorem illegalWordsAreTheListed : Obligations.IllegalWordsAreTheListed := by
  unfold Obligations.IllegalWordsAreTheListed
  intro w
  rcases fieldKind_cases w with
    hk | hk | hk | hk | hk | hk | hk | hk | hk | hk | hk | hk | hk | hk | hk | hk
  all_goals rw [decode, hk]
  · exact (decodeKind0_unknownIff w).of_iff (by simp)
  · exact (decodeKind5_unknownIff w).of_iff (by simp)
  · exact (decodeKind8_unknownIff w).of_iff (by simp)
  · exact (decodeKind9_unknownIff w).of_iff (by simp)
  · exact (decodeKindE_unknownIff w).of_iff (by simp)
  · exact (decodeKindF_unknownIff w).of_iff (by simp)
  all_goals exact unknownIff_ok.of_iff (by simp)

/-- Settles O1: the decoder evaluated on each word. -/
theorem specWordsDecode : Obligations.SpecWordsDecode := by
  unfold Obligations.SpecWordsDecode
  decide

end Sys2Proof

namespace Sys2Proof.Machine

/-! ### The mode -/

section
variable (s : State) (c : Compat)

theorem State.push?_setCompat (w : Word) :
    { s with compat := c }.push? w = (s.push? w).map fun t => { t with compat := c } := by
  unfold State.push?
  split <;> rfl

theorem State.pop?_setCompat :
    { s with compat := c }.pop? = s.pop?.map fun (w, t) => (w, { t with compat := c }) := by
  unfold State.pop?
  split <;> rfl

theorem State.keyPoll_setCompat (r : Reg) :
    { s with compat := c }.keyPoll r = { s.keyPoll r with compat := c } := by
  have hk : { s with compat := c }.leastKey? = s.leastKey? := rfl
  unfold State.keyPoll
  rw [hk]
  cases s.leastKey? <;> rfl

end

/-- The next state of an instruction that does not consult the mode, under another mode. -/
theorem exec_setCompat {i : Instr} {s t : State} (c : Compat) (hi : readsCompat i = false)
    (h : exec i s = .next t) : exec i { s with compat := c } = .next { t with compat := c } := by
  cases i
  -- the five
  case shr | shl | storeRegs | loadRegs | jpV0 => cases hi
  case ret =>
    simp only [exec, execRet, State.pop?_setCompat] at h ⊢
    cases hp : s.pop? <;> rw [hp] at h <;> cases h <;> rfl
  case call nnn =>
    have hp := State.push?_setCompat s c (s.pc + 2)
    simp only [exec, execCall, hp] at h ⊢
    cases hq : s.push? (s.pc + 2) <;> rw [hq] at h <;> cases h <;> rfl
  case ldVxK x =>
    cases h
    exact congrArg _ (s.keyPoll_setCompat c x)
  -- the tests of a fault read nothing of the mode
  case drw | addI | ldB =>
    simp only [exec, execDrw, execAddI, execLdB] at h
    split at h <;> cases h
    · exact if_pos ‹_›
    · exact if_neg ‹_›
  all_goals cases h; rfl

/-- Settles O46: every instruction answers a next state, and each operation of the others commutes with a change of mode. -/
theorem modeMattersToFiveInstructions : Obligations.ModeMattersToFiveInstructions := by
  unfold Obligations.ModeMattersToFiveInstructions
  intro i s c hi
  obtain ⟨t, ht⟩ := exec_answers_next i s
  exact ⟨t, ht, exec_setCompat c hi ht⟩

end Sys2Proof.Machine

namespace Sys2Proof.Machine

/-! ### One equation per kind of step (R90) -/

section
variable {s : State}

theorem step_of_halted (h : s.run = .halted) : step s = .next s := by
  simp only [step, h, haltedStep]

theorem step_of_waiting (h : s.run = .waitingForKey) : step s = .next (s.keyPoll s.waitReg) := by
  simp only [step, h, waitingStep]

theorem step_of_fetch_fault (hr : s.run = .running) (hpc : 0xFFF ≤ s.pc.toNat) :
    step s = .next (s.raise .outOfBoundsAddress 0x0000#16) := by
  simp only [step, hr, (s.fetch?_eq_none_iff).mpr hpc, fetchFault]

theorem step_of_unknown (hr : s.run = .running) (hpc : s.pc.toNat < 0xFFF) {e : DecodeError}
    (hd : decode s.wordAtPc = .error e) :
    step s = .next (s.raise .unknownOpcode s.wordAtPc) := by
  simp only [step, hr, (s.fetch?_eq_some_iff _).mpr ⟨hpc, rfl⟩, hd, unknownOpcodeFault]

theorem step_of_decoded (hr : s.run = .running) (hpc : s.pc.toNat < 0xFFF) {i : Instr}
    (hd : decode s.wordAtPc = .ok i) : step s = exec i s := by
  simp only [step, hr, (s.fetch?_eq_some_iff _).mpr ⟨hpc, rfl⟩, hd]

end

/-! ### The fault of an instruction and of a step (R154, R159, R161) -/

theorem exec_of_fault {i : Instr} {s : State} {k : FaultKind} (h : instrFault i s = some k) :
    exec i s = .next (s.raise k (encode i)) := by
  obtain ⟨t, ht⟩ := exec_answers_next i s
  rcases exec_cases i s t ht with ⟨k', hk', rfl⟩ | ⟨hn, -⟩
  · cases h.symm.trans hk'
    exact ht
  · cases h.symm.trans hn

/-- From a running machine, an instruction without a fault does not halt it. -/
theorem run_ne_halted_of_no_fault {i : Instr} {s t : State} (hr : s.run = .running)
    (hf : instrFault i s = none) (h : exec i s = .next t) : t.run ≠ .halted := by
  rcases exec_cases i s t h with ⟨k, hk, -⟩ | ⟨-, hrun⟩
  · cases hf.symm.trans hk
  · rcases hrun with e | e | e <;> simp [e, hr]

section
variable {s : State}

theorem stepFault_of_fetch_fault (hpc : 0xFFF ≤ s.pc.toNat) :
    stepFault s = some (.outOfBoundsAddress, 0x0000#16) :=
  if_pos hpc

theorem stepFault_of_unknown (hpc : s.pc.toNat < 0xFFF) {e : DecodeError}
    (hd : decode s.wordAtPc = .error e) : stepFault s = some (.unknownOpcode, s.wordAtPc) := by
  simp only [stepFault, if_neg (Nat.not_le.mpr hpc), hd]

theorem stepFault_of_decoded (hpc : s.pc.toNat < 0xFFF) {i : Instr}
    (hd : decode s.wordAtPc = .ok i) :
    stepFault s = (instrFault i s).map fun k => (k, s.wordAtPc) := by
  simp only [stepFault, if_neg (Nat.not_le.mpr hpc), hd]

/-- A running step raises the fault of `stepFault` (R155), or there is none and it runs an instruction without a fault. -/
theorem running_step_cases (hr : s.run = .running) :
    (∃ kind word, stepFault s = some (kind, word) ∧ step s = .next (s.raise kind word))
      ∨ (stepFault s = none ∧ ∃ i, instrFault i s = none ∧ step s = exec i s) := by
  by_cases hpc : 0xFFF ≤ s.pc.toNat
  · exact .inl ⟨_, _, stepFault_of_fetch_fault hpc, step_of_fetch_fault hr hpc⟩
  have hpc := Nat.not_le.mp hpc
  cases hd : decode s.wordAtPc with
  | error e => exact .inl ⟨_, _, stepFault_of_unknown hpc hd, step_of_unknown hr hpc hd⟩
  | ok i =>
    have hsf := stepFault_of_decoded hpc hd
    have hstep := step_of_decoded hr hpc hd
    cases hf : instrFault i s with
    | none => exact .inr ⟨by rw [hsf, hf]; rfl, i, hf, hstep⟩
    | some k =>
      rw [hf] at hsf
      rw [exec_of_fault hf, encode_of_decode hd] at hstep
      exact .inl ⟨_, _, hsf, hstep⟩

end

/-- Settles O11: each fault of a running step is raised, and an instruction without one does not halt. -/
theorem stepHaltsExactlyOnFault : Obligations.StepHaltsExactlyOnFault := by
  unfold Obligations.StepHaltsExactlyOnFault
  intro s hr
  rcases running_step_cases hr with ⟨k, w, hsf, hstep⟩ | ⟨hsf, i, hf, hstep⟩
  · refine ⟨fun kind word h => ?_, fun h => ?_⟩
    · cases hsf.symm.trans h
      exact ⟨_, hstep, haltsWith_raise s k w⟩
    · cases hsf.symm.trans h
  · refine ⟨fun kind word h => ?_, fun _ => ?_⟩
    · cases hsf.symm.trans h
    · obtain ⟨t, ht⟩ := exec_answers_next i s
      exact ⟨t, hstep.trans ht, run_ne_halted_of_no_fault hr hf ht⟩

/-- A running step that halts records `PC` (R155). -/
theorem faultAddr_of_step_halts {s t : State} (hr : s.run = .running) (h : step s = .next t)
    (ht : t.run = .halted) : t.faultAddr = s.pc := by
  rcases running_step_cases hr with ⟨k, w, -, hstep⟩ | ⟨-, i, hf, hstep⟩
  · cases hstep.symm.trans h
    rfl
  · exact absurd ht (run_ne_halted_of_no_fault hr hf (hstep.symm.trans h))

/-- Settles O8: the two outcomes of a fetch, and the address that a step below the bound records. -/
theorem fetchReadsWordOrFaults : Obligations.FetchReadsWordOrFaults := by
  unfold Obligations.FetchReadsWordOrFaults
  intro s hr
  refine ⟨fun hpc => ?_, fun hpc => ⟨?_, fun t h ht => ?_⟩⟩
  · exact ⟨_, step_of_fetch_fault hr hpc, haltsWith_raise s _ _⟩
  · exact (s.fetch?_eq_some_iff _).mpr ⟨hpc, rfl⟩
  · rw [faultAddr_of_step_halts hr h ht]
    exact hpc

/-- Settles O10: the two bytes are the word at `PC`. -/
theorem stepRunsDecodedInstruction : Obligations.StepRunsDecodedInstruction := by
  unfold Obligations.StepRunsDecodedInstruction
  intro s i hr hpc h
  have hd : decode s.wordAtPc = .ok i := by
    rw [State.wordAtPc]
    rw [decodeBytes] at h
    split at h
    · next j hj => cases h; exact hj
    · cases h
  exact ⟨wellFormed_of_decode hd, step_of_decoded hr hpc hd⟩

/-! ### The halted and the waiting step (R91, R98) -/

/-- Each event but `Reset` changes nothing in Halted, or writes the keys only (R98). -/
theorem deliver_of_halted {e : Event} {s t : State} (hs : s.run = .halted)
    (hne : ∀ program compat, e ≠ .reset program compat) (h : deliver e s = .next t) :
    t = s ∨ ∃ k, t = s.setKeys k := by
  cases e with
  | reset program c => exact absurd rfl (hne program c)
  | step => rw [deliver, step_of_halted hs] at h; cases h; exact .inl rfl
  | timerPulse => rw [deliver, State.timerPulse_of_halted hs] at h; cases h; exact .inl rfl
  | setKeys k => rw [deliver] at h; cases h; exact .inr ⟨k, rfl⟩

/-- Settles O6: a halted step, and the fault record under each event but `Reset`. -/
theorem haltedIsTerminal : Obligations.HaltedIsTerminal := by
  unfold Obligations.HaltedIsTerminal
  intro s hs
  refine ⟨step_of_halted hs, fun e t hne h => ?_⟩
  rcases deliver_of_halted hs hne h with rfl | ⟨k, rfl⟩
  · exact ⟨hs, rfl, rfl, rfl⟩
  · exact ⟨(s.setKeys_run k).trans hs, s.setKeys_faultKind k, s.setKeys_faultWord k,
      s.setKeys_faultAddr k⟩

/-- A machine that waits for `V[WAIT_REG]` and finds no key stays as it was. -/
theorem State.suspend_waitReg_of_waiting {s : State} (h : s.run = .waitingForKey) :
    s.suspend s.waitReg = s := by
  rw [State.suspend, ← h]

theorem Frame.takeKey (s : State) (r : Reg) (b : Byte) :
    FrameBut [.v r, .pc, .run] s ((s.setV r b).advance).resume :=
  (((Frame.setV s r b).trans (Frame.advance _)).trans (Frame.resume _)).mono (by simp [or_assoc])

/-- Settles O7: the poll of `WAIT_REG` with a least key, and with none. -/
theorem waitingStepPollsKeys : Obligations.WaitingStepPollsKeys := by
  unfold Obligations.WaitingStepPollsKeys
  intro s hs
  rw [step_of_waiting hs]
  refine ⟨fun k hk hleast => ?_, fun hnone => ?_⟩
  · rw [s.keyPoll_of_least s.waitReg k hk hleast]
    exact ⟨_, rfl, s.getV_setV_self _ _, rfl, rfl, Frame.takeKey s _ _⟩
  · rw [s.keyPoll_of_none s.waitReg hnone, State.suspend_waitReg_of_waiting hs]

/-! ### Where `PC` goes (R94) -/

/-- The six skips (R103 to R106, R140, R141). -/
def IsSkip (i : Instr) : Prop :=
  (∃ x kk, i = .seImm x kk ∨ i = .sneImm x kk)
    ∨ (∃ x y, i = .seReg x y ∨ i = .sneReg x y) ∨ ∃ x, i = .skp x ∨ i = .sknp x

/-- The instructions that set `PC` other than by 2 or 4: the jumps, call, return and the key wait (R94). -/
def IsTransfer (i : Instr) : Prop :=
  i = .ret ∨ (∃ a, i = .jp a) ∨ (∃ a, i = .call a) ∨ (∃ a x, i = .jpV0 a x) ∨ ∃ x, i = .ldVxK x

theorem State.skipIf_pc_cases (s : State) (c : Bool) :
    (s.skipIf c).pc = s.pc + 2 ∨ (s.skipIf c).pc = s.pc + 4 := by
  cases c
  · exact .inl rfl
  · exact .inr rfl

section
variable {s : State}

/-! The fault condition of each instruction that accesses memory is its own bound test (R52, R154). -/

theorem instrFault_drw (x y : Reg) (n : Nibble) :
    instrFault (.drw x y n) s
      = if outsideMemory s.index n.toNat then some .outOfBoundsAddress else none :=
  if_congr (outsideMemory_iff _ _).symm rfl rfl

theorem instrFault_ldB (x : Reg) :
    instrFault (.ldB x) s = if outsideMemory s.index 3 then some .outOfBoundsAddress else none :=
  if_congr (by rw [outsideMemory_iff, State.index]; omega) rfl rfl

theorem instrFault_storeRegs (x : Reg) :
    instrFault (.storeRegs x) s
      = if outsideMemory s.index (x.toNat + 1) then some .outOfBoundsAddress else none :=
  if_congr (by rw [outsideMemory_iff, State.index]; omega) rfl rfl

theorem instrFault_loadRegs (x : Reg) :
    instrFault (.loadRegs x) s
      = if outsideMemory s.index (x.toNat + 1) then some .outOfBoundsAddress else none :=
  instrFault_storeRegs x

/-- An instruction that is a test of its fault and then an effect has the effect when it does not fault. -/
theorem eq_of_no_fault {i : Instr} {k : FaultKind} {t u : State} {c : Prop} [Decidable c]
    (hf : (if c then some k else none) = none)
    (h : (if c then raiseIn i k s else .next u) = .next t) : t = u := by
  by_cases hc : c
  · rw [if_pos hc] at hf
    cases hf
  · rw [if_neg hc] at h
    cases h
    rfl

end

/-- An instruction that neither faults nor transfers control goes on by 2, or by 4 if it is a skip. -/
theorem pc_of_not_transfer {i : Instr} {s t : State} (h : exec i s = .next t)
    (hf : instrFault i s = none) (hi : ¬ IsTransfer i) :
    t.pc = s.pc + 2 ∨ (t.pc = s.pc + 4 ∧ IsSkip i) := by
  cases i
  case ret | jp | call | jpV0 | ldVxK => exact absurd (by simp [IsTransfer]) hi
  case seImm | sneImm | seReg | sneReg | skp | sknp =>
    cases h
    exact (s.skipIf_pc_cases _).imp_right fun e => ⟨e, by simp [IsSkip]⟩
  -- the instructions with a fault of their own
  case drw x y n => rw [eq_of_no_fault (instrFault_drw x y n ▸ hf) h]; exact .inl (by simp)
  case addI x => rw [eq_of_no_fault hf h]; exact .inl (by simp)
  case ldB x => rw [eq_of_no_fault (instrFault_ldB x ▸ hf) h]; exact .inl (by simp)
  case storeRegs x => rw [eq_of_no_fault (instrFault_storeRegs x ▸ hf) h]; exact .inl (by simp)
  case loadRegs x => rw [eq_of_no_fault (instrFault_loadRegs x ▸ hf) h]; exact .inl (by simp)
  -- the others end in `advance`
  all_goals cases h; exact .inl rfl

/-- A poll moves on to the next instruction, or waits where it is (R91). -/
theorem State.keyPoll_pc_cases (s : State) (r : Reg) :
    (s.keyPoll r).pc = s.pc + 2
      ∨ ((s.keyPoll r).pc = s.pc ∧ (s.keyPoll r).run = .waitingForKey) := by
  rcases s.keyPoll_cases r with ⟨k, -, -, e⟩ | ⟨-, e⟩
  · rw [e]; exact .inl rfl
  · rw [e]; exact .inr ⟨rfl, rfl⟩

/-- Settles O47: a fault keeps `PC`, and without one the class of the instruction says where it goes. -/
theorem pcMovesByClass : Obligations.PcMovesByClass := by
  unfold Obligations.PcMovesByClass
  intro i s t h
  refine ⟨fun hf => ?_, fun hf hret hjp hcall hjpV0 hwait => pc_of_not_transfer h hf ?_,
    fun x hx => ?_⟩
  · obtain ⟨k, hk⟩ := Option.ne_none_iff_exists'.mp hf
    cases (exec_of_fault hk).symm.trans h
    rfl
  · rintro (e | ⟨a, e⟩ | ⟨a, e⟩ | ⟨a, x, e⟩ | ⟨x, e⟩)
    · exact hret e
    · exact hjp a e
    · exact hcall a e
    · exact hjpV0 a x e
    · exact hwait x e
  · subst hx
    cases h
    exact s.keyPoll_pc_cases x

/-! ### What every step leaves alone (R99) -/

/-- A step has an instruction's effect, or writes no more than the `Fx0A` of `WAIT_REG` would: the poll, fault entry or nothing. -/
theorem step_frame_or_exec {s t : State} (h : step s = .next t) :
    Frame (mayWrite (.ldVxK s.waitReg) s.compat) s t
      ∨ ∃ i, s.run = .running ∧ decode s.wordAtPc = .ok i ∧ exec i s = .next t := by
  rcases step_cases s _ h with ⟨-, e⟩ | ⟨-, e⟩ | ⟨-, -, e⟩ | ⟨-, -, -, e⟩ | ⟨i, hr, -, hd, e⟩
  · cases e; exact .inl (Frame.refl _ s)
  · exact .inl (exec_frame (i := .ldVxK s.waitReg) e.symm)
  · cases e; exact .inl ((Frame.raise s _ _).mono mayWrite_of_ofFault)
  · cases e; exact .inl ((Frame.raise s _ _).mono mayWrite_of_ofFault)
  · exact .inr ⟨i, hr, hd, e.symm⟩

/-- Settles O48: keys, mode and timers are outside the frame of a step, but for the two instructions that set a timer. -/
theorem stepNeverWritesKeysModeTimers : Obligations.StepNeverWritesKeysModeTimers := by
  unfold Obligations.StepNeverWritesKeysModeTimers
  intro s t h
  rcases step_frame_or_exec h with hf | ⟨i, hr, hd, hx⟩
  · exact ⟨fun k => hf (.key k) id, hf .compat id, .inl (hf .dt (by simp [mayWrite])),
      .inl (hf .st (by simp [mayWrite]))⟩
  · have hf := exec_frame hx
    refine ⟨fun k => hf (.key k) id, hf .compat id, ?_, ?_⟩
    · by_cases hi : ∃ x, i = .ldDtVx x
      · obtain ⟨x, rfl⟩ := hi
        cases hx
        exact .inr ⟨x, hr, hd, rfl⟩
      · exact .inl (hf .dt hi)
    · by_cases hi : ∃ x, i = .ldStVx x
      · obtain ⟨x, rfl⟩ := hi
        cases hx
        exact .inr ⟨x, hr, hd, rfl⟩
      · exact .inl (hf .st hi)

end Sys2Proof.Machine

/-! ### Control flow: call, return, jumps and skips (41_control_flow.md) -/

namespace Sys2Proof.Machine

/-- The fault of an instruction as an answer (R155): RUN, the record with the instruction's word, nothing else. -/
theorem exec_haltsWith_of_fault {i : Instr} {s : State} {k : FaultKind}
    (h : instrFault i s = some k) : ∃ t, exec i s = .next t ∧ HaltsWith k (encode i) s t :=
  ⟨_, exec_of_fault h, haltsWith_raise s k _⟩

theorem Frame.setPc_frameBut (s : State) (w : Word) : FrameBut [.pc] s (s.setPc w) :=
  (Frame.setPc s w).mono fun _ => List.mem_singleton.mpr

/-! ### The call stack (R24) -/

/-- A push writes the entry at the old `SP` and no other. -/
theorem Frame.push_entry {s t : State} {w : Word} {k : Fin 16} (hk : s.sp.val = k.val)
    (h : s.push? w = some t) : FrameBut [.stackEntry k, .sp] s t := by
  intro p hp
  cases p
  case stackEntry j =>
    obtain ⟨-, -, hstack, -⟩ := State.push?_eq_some s t w h
    have hj : j.val ≠ s.sp.val := fun e => hp (by simp [Fin.ext (e.trans hk)])
    exact (hstack j).trans (if_neg hj)
  case sp => simp at hp
  all_goals exact Frame.push h _ (by simp)

/-- `2nnn` with fewer than 16 held: the push, then the jump (R102). -/
theorem exec_call_of_room {s : State} {k : Fin 16} (nnn : Addr) (hk : s.sp.val = k.val) :
    ∃ t, exec (.call nnn) s = .next t ∧ t.stack[k.val] = s.pc + 2 ∧ t.sp.val = k.val + 1
      ∧ t.pc = addrOperand nnn ∧ FrameBut [.stackEntry k, .sp, .pc] s t := by
  cases hp : s.push? (s.pc + 2) with
  | none =>
    have := (s.push?_eq_none_iff _).mp hp
    omega
  | some u =>
    obtain ⟨-, hsp, hstack, -⟩ := State.push?_eq_some s u _ hp
    refine ⟨u.setPc (addrOperand nnn), by simp only [exec, execCall, hp],
      (hstack k).trans (if_pos hk.symm), hsp.trans (congrArg (· + 1) hk), rfl, ?_⟩
    exact ((Frame.push_entry hk hp).trans (Frame.setPc u _)).mono (by simp [or_assoc])

/-- `00EE` with an address held: the newest one, left in the array (R100). -/
theorem exec_ret_of_held {s : State} {k : Fin 16} (hk : s.sp.val = k.val + 1) :
    ∃ t, exec .ret s = .next t ∧ t.pc = s.stack[k.val] ∧ t.sp.val = k.val
      ∧ FrameBut [.sp, .pc] s t := by
  cases hp : s.pop? with
  | none =>
    have := (s.pop?_eq_none_iff).mp hp
    omega
  | some q =>
    obtain ⟨w, u⟩ := q
    obtain ⟨j, hj, rfl, hsp, -⟩ := State.pop?_eq_some s u w hp
    obtain rfl : j = k := Fin.ext (by omega)
    refine ⟨u.setPc s.stack[j.val], by simp only [exec, execRet, hp], rfl, hsp, ?_⟩
    exact ((Frame.pop hp).trans (Frame.setPc u _)).mono (by simp)

/-- Settles O49: the entry that the return reads is the one that the call wrote. -/
theorem retReturnsAfterCall : Obligations.RetReturnsAfterCall := by
  unfold Obligations.RetReturnsAfterCall
  intro nnn s hlt
  obtain ⟨t, ht, hentry, hsp, -, -⟩ := exec_call_of_room (k := ⟨s.sp.val, hlt⟩) nnn rfl
  refine ⟨t, ht, fun u hustack husp => ?_⟩
  obtain ⟨r, hr, hpc, hrsp, -⟩ := exec_ret_of_held (s := u) ((congrArg Fin.val husp).trans hsp)
  refine ⟨r, hr, ?_, Fin.ext hrsp⟩
  simp only [hpc, hustack, hentry]

/-- Settles O22: the pop of `exec_ret_of_held`, and the fault of an empty stack. -/
theorem retPopsOrUnderflows : Obligations.RetPopsOrUnderflows := by
  unfold Obligations.RetPopsOrUnderflows
  exact ⟨decode_encode (i := .ret) rfl, fun s k hk => exec_ret_of_held hk,
    fun s h => exec_haltsWith_of_fault (i := .ret) (if_pos h)⟩

/-! ### Jump targets -/

theorem addrOperand_toNat (nnn : Addr) : (addrOperand nnn).toNat = nnn.toNat :=
  BitVec.toNat_setWidth_of_le (by decide)

theorem byteOperand_toNat (b : Byte) : (byteOperand b).toNat = b.toNat :=
  BitVec.toNat_setWidth_of_le (by decide)

/-- The sum of `Bnnn` fits 16 bits, so it does not wrap (R107). -/
theorem addrOperand_add_byteOperand_toNat (nnn : Addr) (b : Byte) :
    (addrOperand nnn + byteOperand b).toNat = nnn.toNat + b.toNat := by
  have hn := nnn.isLt
  have hb := b.isLt
  rw [BitVec.toNat_add, addrOperand_toNat, byteOperand_toNat]
  omega

theorem State.jumpOffset_toNat (s : State) (x : Reg) :
    (s.jumpOffset x).toNat
      = if s.compat = .legacy then (s.getV 0x0#4).toNat else (s.getV x).toNat := by
  cases hc : s.compat <;> simp [State.jumpOffset, hc]

/-- Settles O23: `PC` is written with `nnn` widened. -/
theorem jpSetsPc : Obligations.JpSetsPc := by
  unfold Obligations.JpSetsPc
  exact fun nnn s => ⟨decode_encode (i := .jp nnn) rfl, _, rfl, addrOperand_toNat nnn,
    Frame.setPc_frameBut s _⟩

/-- Settles O24: the push of `exec_call_of_room`, and the fault of a full stack. -/
theorem callPushesOrOverflows : Obligations.CallPushesOrOverflows := by
  unfold Obligations.CallPushesOrOverflows
  intro nnn s
  refine ⟨decode_encode (i := .call nnn) rfl, fun k hk => ?_, fun h => ?_⟩
  · obtain ⟨t, ht, hentry, hsp, hpc, hframe⟩ := exec_call_of_room nnn hk
    exact ⟨t, ht, hentry, hsp, by rw [hpc, addrOperand_toNat], hframe⟩
  · exact exec_haltsWith_of_fault (i := .call nnn) (if_pos h)

/-- Settles O27: the mode picks the offset, and the sum does not wrap. -/
theorem jpV0AddsModeOffset : Obligations.JpV0AddsModeOffset := by
  unfold Obligations.JpV0AddsModeOffset
  intro nnn x s
  refine ⟨decode_encode (i := .jpV0 nnn _) (by simp [Instr.wellFormed, jpV0FieldsAgree]),
    _, rfl, ?_, Frame.setPc_frameBut s _⟩
  rw [State.setPc_pc, addrOperand_add_byteOperand_toNat, State.jumpOffset_toNat]

/-! ### Skips -/

/-- What a skip answers, its test given as a proposition (R94). -/
theorem State.skipIf_answers (s : State) {c : Bool} {p : Prop} [Decidable p] (h : c = true ↔ p) :
    ∃ t, (Host.Outcome.next (s.skipIf c) : Result) = .next t
      ∧ t.pc = (if p then s.pc + 4 else s.pc + 2) ∧ FrameBut [.pc] s t :=
  ⟨_, rfl, if_congr h rfl rfl, Frame.setPc_frameBut s _⟩

/-- Settles O25: both are skips on the comparison with `kk`. -/
theorem skipsOnImmediateCompare : Obligations.SkipsOnImmediateCompare := by
  unfold Obligations.SkipsOnImmediateCompare
  exact fun x kk s =>
    ⟨⟨decode_encode (i := .seImm x kk) rfl, s.skipIf_answers beq_iff_eq⟩,
      decode_encode (i := .sneImm x kk) rfl, s.skipIf_answers bne_iff_ne⟩

/-- Settles O26: both are skips on the comparison of two registers. -/
theorem skipsOnRegisterCompare : Obligations.SkipsOnRegisterCompare := by
  unfold Obligations.SkipsOnRegisterCompare
  exact fun x y s =>
    ⟨⟨decode_encode (i := .seReg x y) rfl, s.skipIf_answers beq_iff_eq⟩,
      decode_encode (i := .sneReg x y) rfl, s.skipIf_answers bne_iff_ne⟩

end Sys2Proof.Machine

/-! ### Register and arithmetic (42_register_alu.md) -/

namespace Sys2Proof.Machine

/-! ### What the two shapes of register instruction answer -/

/-- An instruction that writes one register and moves on (R110 to R115). -/
theorem State.setV_answers (s : State) (x : Reg) (b : Byte) :
    ∃ t, (Host.Outcome.next (s.setV x b).advance : Result) = .next t ∧ t.getV x = b
      ∧ t.pc = s.pc + 2 ∧ FrameBut [.v x, .pc] s t :=
  ⟨_, rfl, s.getV_setV_self x b, rfl,
    ((Frame.setV s x b).trans (Frame.advance _)).mono (by simp)⟩

/-- An instruction that writes a result, then the flag, and moves on (R116 to R120, R123): the flag stands for every `x`, the result unless the flag overwrites it. -/
theorem State.setFlagged_answers (s : State) (x : Reg) {r : Flagged} {n : Nat} {p : Prop}
    [Decidable p] (hresult : r.result.toNat = n) (hflag : r.flag = true ↔ p) :
    ∃ t, (Host.Outcome.next (s.setFlagged x r).advance : Result) = .next t
      ∧ (x ≠ 0xF#4 → (t.getV x).toNat = n) ∧ t.getV 0xF#4 = (if p then 1#8 else 0#8)
      ∧ t.pc = s.pc + 2 ∧ FrameBut [.v x, .v 0xF#4, .pc] s t := by
  refine ⟨_, rfl, fun (hx : x ≠ regF) => ?_, ?_, rfl, ?_⟩
  · rw [State.advance_getV, State.getV_setFlagged, if_neg hx, if_pos rfl, hresult]
  · exact (s.getV_setFlagged_regF x r).trans (if_congr hflag rfl rfl)
  · exact ((Frame.setFlagged s x r).trans (Frame.advance _)).mono (by simp [regF, or_assoc])

/-! ### The flagged results as numbers (R122) -/

theorem addFlagged_result_toNat (a b : Byte) :
    (addFlagged a b).result.toNat = (a.toNat + b.toNat) % 256 :=
  (BitVec.toNat_ofNat _ _).trans (Nat.mod_mod _ _)

theorem subFlagged_result_toNat (a b : Byte) :
    (subFlagged a b).result.toNat = (a.toNat + 256 - b.toNat) % 256 :=
  (BitVec.toNat_ofNat _ _).trans (Nat.mod_mod _ _)

theorem shrFlagged_result_toNat (b : Byte) : (shrFlagged b).result.toNat = b.toNat / 2 :=
  (BitVec.toNat_ofNat _ _).trans (Nat.mod_eq_of_lt ((Nat.div_le_self _ _).trans_lt b.isLt))

theorem shlFlagged_result_toNat (b : Byte) : (shlFlagged b).result.toNat = b.toNat * 2 % 256 :=
  (BitVec.toNat_ofNat _ _).trans (Nat.mod_mod _ _)

theorem State.shiftSource_eq (s : State) (x y : Reg) :
    s.shiftSource x y = if s.compat = .legacy then s.getV y else s.getV x := by
  cases hc : s.compat <;> simp [State.shiftSource, hc]

/-! ### One register written, no flag -/

/-- Settles O12: the register is written with `kk`. -/
theorem ldImmSetsRegister : Obligations.LdImmSetsRegister := by
  unfold Obligations.LdImmSetsRegister
  exact fun x kk s => ⟨decode_encode (i := .ldImm x kk) rfl, s.setV_answers x kk⟩

/-- Settles O13: of the flagged sum only the result is written. -/
theorem addImmWrapsWithoutFlag : Obligations.AddImmWrapsWithoutFlag := by
  unfold Obligations.AddImmWrapsWithoutFlag
  intro x kk s
  obtain ⟨t, ht, hv, hpc, hframe⟩ := s.setV_answers x (addFlagged (s.getV x) kk).result
  exact ⟨decode_encode (i := .addImm x kk) rfl, t, ht,
    (congrArg BitVec.toNat hv).trans (addFlagged_result_toNat _ _), hpc, hframe⟩

/-- Settles O14: the register is written with the other one's old value. -/
theorem ldRegCopiesRegister : Obligations.LdRegCopiesRegister := by
  unfold Obligations.LdRegCopiesRegister
  exact fun x y s => ⟨decode_encode (i := .ldReg x y) rfl, s.setV_answers x _⟩

/-- Settles O15: each of the three writes its destination and nothing else. -/
theorem logicOpsLeaveFlagAlone : Obligations.LogicOpsLeaveFlagAlone := by
  unfold Obligations.LogicOpsLeaveFlagAlone
  exact fun x y s =>
    ⟨⟨decode_encode (i := .orReg x y) rfl, s.setV_answers x _⟩,
      ⟨decode_encode (i := .andReg x y) rfl, s.setV_answers x _⟩,
      decode_encode (i := .xorReg x y) rfl, s.setV_answers x _⟩

/-- Settles O21: the register write of `setV_answers` with the draw used up in between. -/
theorem rndMasksFreeByte : Obligations.RndMasksFreeByte := by
  unfold Obligations.RndMasksFreeByte
  intro x kk s
  refine ⟨decode_encode (i := .rnd x kk) rfl, _, rfl, s.getV_setV_self x _, rfl, rfl, ?_⟩
  exact (((Frame.setV s x _).trans (Frame.nextDraw _)).trans (Frame.advance _)).mono
    (by simp [or_comm])

/-! ### A result, then the flag -/

/-- Settles O16: the flag is the carry of the exact sum. -/
theorem addRegSetsCarry : Obligations.AddRegSetsCarry := by
  unfold Obligations.AddRegSetsCarry
  exact fun x y s => ⟨decode_encode (i := .addReg x y) rfl,
    s.setFlagged_answers x (addFlagged_result_toNat _ _) decide_eq_true_iff⟩

/-- Settles O17: the flag is set unless the subtraction borrows. -/
theorem subRegSetsNoBorrow : Obligations.SubRegSetsNoBorrow := by
  unfold Obligations.SubRegSetsNoBorrow
  exact fun x y s => ⟨decode_encode (i := .subReg x y) rfl,
    s.setFlagged_answers x (subFlagged_result_toNat _ _) decide_eq_true_iff⟩

/-- Settles O18: as for `8xy5`, with the operands exchanged. -/
theorem subnSetsNoBorrow : Obligations.SubnSetsNoBorrow := by
  unfold Obligations.SubnSetsNoBorrow
  exact fun x y s => ⟨decode_encode (i := .subn x y) rfl,
    s.setFlagged_answers x (subFlagged_result_toNat _ _) decide_eq_true_iff⟩

/-- Settles O19: the mode picks the source, and the flag is its bit 0. -/
theorem shrShiftsModeSource : Obligations.ShrShiftsModeSource := by
  unfold Obligations.ShrShiftsModeSource
  intro x y s b hb
  obtain rfl : b = s.shiftSource x y := hb.trans (s.shiftSource_eq x y).symm
  exact ⟨decode_encode (i := .shr x y) rfl,
    s.setFlagged_answers x (shrFlagged_result_toNat _) Iff.rfl⟩

/-- Settles O20: the mode picks the source, and the flag is its bit 7. -/
theorem shlShiftsModeSource : Obligations.ShlShiftsModeSource := by
  unfold Obligations.ShlShiftsModeSource
  intro x y s b hb
  obtain rfl : b = s.shiftSource x y := hb.trans (s.shiftSource_eq x y).symm
  exact ⟨decode_encode (i := .shl x y) rfl,
    s.setFlagged_answers x (shlFlagged_result_toNat _) Iff.rfl⟩

end Sys2Proof.Machine

/-! ### Index register and memory (43_index_memory.md) -/

namespace Sys2Proof.Machine

/-! ### `I` written, nothing stored -/

theorem toNat_word_of_fits {n : Nat} (h : n ≤ 0xFFFF) : (BitVec.ofNat 16 n).toNat = n :=
  (BitVec.toNat_ofNat n 16).trans (Nat.mod_eq_of_lt (Nat.lt_succ_of_le h))

/-- An instruction that writes `I` and moves on (R125 to R127). -/
theorem State.setI_answers (s : State) {w : Word} {n : Nat} (hw : w.toNat = n) :
    ∃ t, (Host.Outcome.next (s.setI w).advance : Result) = .next t ∧ t.i.toNat = n
      ∧ t.pc = s.pc + 2 ∧ FrameBut [.i, .pc] s t :=
  ⟨_, rfl, hw, rfl, ((Frame.setI s w).trans (Frame.advance _)).mono (by simp)⟩

/-- Settles O28: `I` is written with `nnn` widened. -/
theorem ldISetsIndex : Obligations.LdISetsIndex := by
  unfold Obligations.LdISetsIndex
  exact fun nnn s => ⟨decode_encode (i := .ldI nnn) rfl, s.setI_answers (addrOperand_toNat nnn)⟩

theorem exec_addI_of_fits {x : Reg} {s : State} (h : s.i.toNat + (s.getV x).toNat ≤ 0xFFFF) :
    exec (.addI x) s = .next (s.setI (BitVec.ofNat 16 (s.i.toNat + (s.getV x).toNat))).advance :=
  if_neg (Nat.not_lt.mpr h)

/-- Settles O29: a sum that fits 16 bits is written exactly, any other one is the instruction's fault. -/
theorem addISumsOrFaults : Obligations.AddISumsOrFaults := by
  unfold Obligations.AddISumsOrFaults
  intro x s
  refine ⟨decode_encode (i := .addI x) rfl, fun h => ?_, fun h => ?_⟩
  · rw [exec_addI_of_fits h]
    exact s.setI_answers (toNat_word_of_fits h)
  · exact exec_haltsWith_of_fault (i := .addI x) (if_pos h)

theorem State.lowNibble_toNat (s : State) (x : Reg) :
    (s.lowNibble x).toNat = (s.getV x).toNat % 16 := by
  simp [State.lowNibble, BitVec.extractLsb'_toNat]

/-- The font's addresses fit 16 bits wherever the font lies (R10, R127). -/
theorem fontAddress_toNat (base : Fin 0x1B1) (d : Reg) :
    (fontAddress base.val d).toNat = base.val + 5 * d.toNat :=
  toNat_word_of_fits (by omega)

/-- Settles O30: the digit is the register's low nibble. -/
theorem ldFSetsFontAddress : Obligations.LdFSetsFontAddress := by
  unfold Obligations.LdFSetsFontAddress
  exact fun x s => ⟨decode_encode (i := .ldF x) rfl,
    s.setI_answers ((fontAddress_toNat _ _).trans (by rw [s.lowNibble_toNat]))⟩

/-! ### The decimal digits `Fx33` stores -/

theorem not_outsideMemory_of_last_le {a n : Nat} (h : a + n ≤ 0xFFF) :
    ¬ outsideMemory a (n + 1) = true := by
  rw [outsideMemory_iff]
  omega

theorem exec_ldB_of_inBounds {x : Reg} {s : State} (h : s.i.toNat + 2 ≤ 0xFFF) :
    exec (.ldB x) s = .next (s.storeBytes s.i.toNat (decimalDigits (s.getV x))).advance :=
  if_neg (not_outsideMemory_of_last_le h)

/-- The three digits are read back from the three bytes they were stored to (R128). -/
theorem State.readByte_storeBytes_decimalDigits (s : State) (a : Nat) (b : Byte) :
    ((s.storeBytes a (decimalDigits b)).readByte a).toNat = b.toNat / 100
      ∧ ((s.storeBytes a (decimalDigits b)).readByte (a + 1)).toNat = b.toNat / 10 % 10
      ∧ ((s.storeBytes a (decimalDigits b)).readByte (a + 2)).toNat = b.toNat % 10 := by
  have hhundreds : b.toNat / 100 < 256 := by omega
  have htens : b.toNat / 10 % 10 < 256 := by omega
  have hones : b.toNat % 10 < 256 := by omega
  simp [State.readByte_storeBytes, decimalDigits, Nat.mod_eq_of_lt, hhundreds, htens, hones]

/-- Settles O31: the stored digits are read back, and the frame is that of a store of three bytes. -/
theorem ldBStoresDecimalDigits : Obligations.LdBStoresDecimalDigits := by
  unfold Obligations.LdBStoresDecimalDigits
  intro x s
  refine ⟨decode_encode (i := .ldB x) rfl, fun h => ?_, fun h => ?_⟩
  · obtain ⟨hhundreds, htens, hones⟩ :=
      s.readByte_storeBytes_decimalDigits s.i.toNat (s.getV x)
    refine ⟨_, exec_ldB_of_inBounds h, hhundreds, htens, hones, rfl,
      ((Frame.storeBytes s _ _).trans (Frame.advance _)).mono ?_⟩
    rintro p (⟨a, hlo, hhi, rfl⟩ | rfl)
    · have ha : a < s.i.toNat + 3 := hhi
      obtain rfl | rfl | rfl : a = s.i.toNat ∨ a = s.i.toNat + 1 ∨ a = s.i.toNat + 2 := by omega
      all_goals simp
    · simp
  · exact exec_haltsWith_of_fault (i := .ldB x) (if_pos h)

/-! ### The register ranges of `Fx55` and `Fx65` -/

/-- `I` after a range of registers was moved within memory: no wrap (R129, R130). -/
theorem State.indexAfter_toNat {s : State} {x : Reg} (h : s.i.toNat + x.toNat ≤ 0xFFF) :
    (s.indexAfter x).toNat
      = if s.compat = .legacy then s.i.toNat + x.toNat + 1 else s.i.toNat := by
  cases hc : s.compat with
  | modern => simp [State.indexAfter, hc]
  | legacy =>
    rw [if_pos rfl]
    simp only [State.indexAfter, hc]
    exact toNat_word_of_fits (by rw [State.index]; omega)

theorem exec_loadRegs_of_inBounds {x : Reg} {s : State} (h : s.i.toNat + x.toNat ≤ 0xFFF) :
    exec (.loadRegs x) s =
      .next ((s.setVUpTo x fun r => s.readByte (s.i.toNat + r)).setI (s.indexAfter x)).advance :=
  if_neg (not_outsideMemory_of_last_le h)

/-- Settles O32: the stored registers are read back, and the frame is that of a store of `x + 1` bytes. -/
theorem storeRegsStoresRange : Obligations.StoreRegsStoresRange := by
  unfold Obligations.StoreRegsStoresRange
  intro x s
  refine ⟨decode_encode (i := .storeRegs x) rfl, fun h => ?_, fun h => ?_⟩
  · refine ⟨_, exec_storeRegs_of_inBounds h, fun r hr => s.readByte_storeBytes_regBytes hr,
      State.indexAfter_toNat h, rfl,
      (((Frame.storeBytes s _ _).trans (Frame.setI _ _)).trans (Frame.advance _)).mono ?_⟩
    rintro p ((⟨a, hlo, hhi, rfl⟩ | rfl) | rfl)
    · rw [State.length_regBytes] at hhi
      exact .inr (.inr ⟨a, hlo, Nat.le_of_lt_succ hhi, rfl⟩)
    · exact .inl rfl
    · exact .inr (.inl rfl)
  · exact exec_haltsWith_of_fault (i := .storeRegs x) (if_pos h)

/-- Settles O33: the registers up to `x` are written from memory at the old `I`, memory is not written. -/
theorem loadRegsLoadsRange : Obligations.LoadRegsLoadsRange := by
  unfold Obligations.LoadRegsLoadsRange
  intro x s
  refine ⟨decode_encode (i := .loadRegs x) rfl, fun h => ?_, fun h => ?_⟩
  · refine ⟨_, exec_loadRegs_of_inBounds h, fun r hr => ?_, State.indexAfter_toNat h, rfl,
      (((Frame.setVUpTo s x _).trans (Frame.setI _ _)).trans (Frame.advance _)).mono ?_⟩
    · rw [State.advance_getV, State.setI_getV, State.getV_setVUpTo, if_pos hr]
    · rintro p ((hp | hp) | hp)
      · exact .inr (.inr hp)
      · exact .inl hp
      · exact .inr (.inl hp)
  · exact exec_haltsWith_of_fault (i := .loadRegs x) (if_pos h)

/-! ### A store, then the load of the same range -/

/-- Settles O34: each register up to `x` is loaded from the byte it was stored to; the others are in the load's frame. -/
theorem loadRegsReturnsStored : Obligations.LoadRegsReturnsStored := by
  unfold Obligations.LoadRegsReturnsStored
  intro x s h
  obtain ⟨-, hstore, -⟩ := storeRegsStoresRange x s
  obtain ⟨t, ht, hbyte, -⟩ := hstore h
  refine ⟨t, ht, fun u hmem hi => ?_⟩
  obtain ⟨-, hload, -⟩ := loadRegsLoadsRange x u
  obtain ⟨v, hv, hreg, -, -, hframe⟩ := hload (by rwa [hi])
  refine ⟨v, hv, fun r => ?_⟩
  split
  case isTrue hr => rw [hreg r hr, hmem, hi, hbyte r hr]
  case isFalse hr => exact hframe (.v r) (by simpa using hr)

/-- Settles O35: `F265` loads the digits that `Fx33` stored at the same `I`. -/
theorem decimalDigitsHaveTheValue : Obligations.DecimalDigitsHaveTheValue := by
  unfold Obligations.DecimalDigitsHaveTheValue
  intro x s h
  obtain ⟨-, hstore, -⟩ := ldBStoresDecimalDigits x s
  obtain ⟨t, ht, hhundreds, htens, hones, -, hframe⟩ := hstore h
  have hi : t.i = s.i := hframe .i (by simp)
  obtain ⟨-, hload, -⟩ := loadRegsLoadsRange 2#4 t
  obtain ⟨u, hu, hreg, -⟩ := hload (by rw [hi]; exact h)
  have h0 : u.getV 0#4 = t.readByte s.i.toNat := hi ▸ hreg 0#4 (by decide)
  have h1 : u.getV 1#4 = t.readByte (s.i.toNat + 1) := hi ▸ hreg 1#4 (by decide)
  have h2 : u.getV 2#4 = t.readByte (s.i.toNat + 2) := hi ▸ hreg 2#4 (by decide)
  have hv := (s.getV x).isLt
  refine ⟨t, u, ht, hu, ?_⟩
  rw [h0, h1, h2, hhundreds, htens, hones]
  omega

end Sys2Proof.Machine

/-! ### Display (44_display.md) -/

namespace Sys2Proof.Machine

/-! ### Clearing -/

/-- Settles O37: the blank display, with the frames of `setFb` and `advance`. -/
theorem clsClearsDisplay : Obligations.ClsClearsDisplay := by
  unfold Obligations.ClsClearsDisplay
  refine ⟨decode_encode (i := .cls) rfl, fun s => ⟨_, rfl, Display.pixel_blank, rfl, ?_⟩⟩
  exact ((Frame.setFb s _).trans (Frame.advance _)).mono fun _ => Or.symm

/-! ### One draw -/

theorem flagByte_eq_one_iff (c : Bool) : flagByte c = 1#8 ↔ c = true := by
  cases c <;> decide

/-- The sprite's bit where its row `r`, column `c` lands is bit `7 - c` of the byte at `I + r` (R136). -/
theorem State.spriteBit_spriteBytes (s : State) {vx vy r c : Nat} {n : Nibble} (hr : r < n.toNat)
    (hc : c < 8) :
    spriteBit vx vy (s.spriteBytes n) (Fin.ofNat 32 (vy + r)) (Fin.ofNat 64 (vx + c))
      = (s.readByte (s.i.toNat + r)).getLsbD (7 - c) := by
  rw [spriteBit_at vx vy _ r c (by omega) hc, s.spriteBytes_getElem? n r hr, Option.getD_some,
    State.index]

/-- To look for a pixel under a sprite bit 1 is to go through the sprite's rows and columns. -/
theorem State.exists_spriteBit_iff (s : State) (n : Nibble) {vx vy : Nat} {p : Fin 32 → Fin 64 → Prop} :
    (∃ py px, spriteBit vx vy (s.spriteBytes n) py px = true ∧ p py px)
      ↔ ∃ r c : Nat, r < n.toNat ∧ c < 8 ∧ (s.readByte (s.i.toNat + r)).getLsbD (7 - c) = true
        ∧ p (Fin.ofNat 32 (vy + r)) (Fin.ofNat 64 (vx + c)) := by
  constructor
  · rintro ⟨py, px, hbit, hp⟩
    obtain ⟨r, c, hr, -, hc, rfl, rfl⟩ := exists_of_spriteBit hbit
    rw [s.spriteBytes_length] at hr
    exact ⟨r, c, hr, hc, (s.spriteBit_spriteBytes hr hc).symm.trans hbit, hp⟩
  · rintro ⟨r, c, hr, hc, hbit, hp⟩
    exact ⟨_, _, (s.spriteBit_spriteBytes hr hc).trans hbit, hp⟩

section
variable (s : State) (x y : Reg) (n : Nibble)

/-- The state a draw answers when no sprite byte is out of bounds. -/
def State.afterDrw : State :=
  ((s.setFb (s.drawn x y n).fb).setV regF (flagByte (s.drawn x y n).collision)).advance

theorem exec_drw_of_inBounds {x y : Reg} {n : Nibble} {s : State}
    (h : n.toNat = 0 ∨ s.i.toNat + n.toNat - 1 ≤ 0xFFF) :
    exec (.drw x y n) s = .next (s.afterDrw x y n) := by
  have hin : ¬ outsideMemory s.index n.toNat = true := by
    rw [outsideMemory_iff, State.index]
    omega
  exact if_neg hin

theorem State.afterDrw_pixel (py : Fin 32) (px : Fin 64) :
    (s.afterDrw x y n).fb.pixel py px
      = (s.fb.pixel py px
        ^^ spriteBit (s.getV x).toNat (s.getV y).toNat (s.spriteBytes n) py px) :=
  s.drawn_pixel x y n py px

theorem State.afterDrw_getV_regF :
    (s.afterDrw x y n).getV regF = flagByte (s.drawn x y n).collision :=
  State.getV_setV_self _ _ _

theorem State.afterDrw_getV_of_ne {r : Reg} (hr : r ≠ regF) :
    (s.afterDrw x y n).getV r = s.getV r :=
  State.getV_setV_of_ne _ _ hr

theorem State.afterDrw_collision_iff :
    (s.afterDrw x y n).getV regF = 1#8 ↔ ∃ py px,
      spriteBit (s.getV x).toNat (s.getV y).toNat (s.spriteBytes n) py px = true
        ∧ s.fb.pixel py px = true := by
  rw [s.afterDrw_getV_regF, flagByte_eq_one_iff, s.drawn_collision]

theorem State.afterDrw_spriteBytes : (s.afterDrw x y n).spriteBytes n = s.spriteBytes n := rfl

theorem Frame.afterDrw :
    Frame (fun p => p = .v regF ∨ p = .pc ∨ ∃ py px, p = .pixel py px) s (s.afterDrw x y n) := by
  refine (((Frame.setFb s _).trans (Frame.setV _ regF _)).trans (Frame.advance _)).mono ?_
  rintro p ((hpixel | hflag) | hpc)
  · exact .inr (.inr hpixel)
  · exact .inl hflag
  · exact .inr (.inl hpc)

end

/-- Settles O38: each pixel takes the sprite's bit there, which is 0 off the sprite's rows and columns; the bound is the instruction's fault. -/
theorem drwDrawsSprite : Obligations.DrwDrawsSprite := by
  unfold Obligations.DrwDrawsSprite
  intro x y n s
  refine ⟨decode_encode (i := .drw x y n) rfl, fun h => ?_, fun hn h => ?_⟩
  · refine ⟨_, exec_drw_of_inBounds h, fun r c hr hc => ?_, fun py px hoff => ?_, ?_, ?_, rfl,
      Frame.afterDrw s x y n⟩
    · rw [s.afterDrw_pixel, s.spriteBit_spriteBytes hr hc]
    · have hbit : spriteBit (s.getV x).toNat (s.getV y).toNat (s.spriteBytes n) py px = false := by
        refine Bool.eq_false_iff.mpr fun hbit => ?_
        obtain ⟨r, c, hr, -, hc, hpy, hpx⟩ := exists_of_spriteBit hbit
        exact hoff r c (s.spriteBytes_length n ▸ hr) hc ⟨hpy, hpx⟩
      rw [s.afterDrw_pixel, hbit, Bool.xor_false]
    · exact s.afterDrw_getV_regF x y n ▸ (flagByte_eq _).symm
    · exact (s.afterDrw_collision_iff x y n).trans (s.exists_spriteBit_iff n)
  · exact exec_haltsWith_of_fault (i := .drw x y n) (if_pos ⟨hn, h⟩)

/-! ### The same draw twice -/

section
variable {x y : Reg} (hx : x ≠ regF) (hy : y ≠ regF) (s : State) (n : Nibble)
include hx hy

/-- Coordinates that are not in `VF` survive the first draw, so each pixel takes the same sprite bit twice. -/
theorem State.afterDrw_afterDrw_pixel (py : Fin 32) (px : Fin 64) :
    ((s.afterDrw x y n).afterDrw x y n).fb.pixel py px = s.fb.pixel py px := by
  rw [State.afterDrw_pixel _ x y n, s.afterDrw_getV_of_ne x y n hx, s.afterDrw_getV_of_ne x y n hy,
    s.afterDrw_spriteBytes, s.afterDrw_pixel, Bool.xor_assoc, Bool.xor_self, Bool.xor_false]

/-- Under a sprite bit 1 the first draw turns a pixel over, so the second meets the ones that were unlit. -/
theorem State.afterDrw_afterDrw_collision_iff :
    ((s.afterDrw x y n).afterDrw x y n).getV regF = 1#8 ↔ ∃ py px,
      spriteBit (s.getV x).toNat (s.getV y).toNat (s.spriteBytes n) py px = true
        ∧ s.fb.pixel py px = false := by
  rw [State.afterDrw_collision_iff _ x y n, s.afterDrw_getV_of_ne x y n hx,
    s.afterDrw_getV_of_ne x y n hy, s.afterDrw_spriteBytes]
  refine exists_congr fun py => exists_congr fun px => and_congr_right fun hbit => ?_
  rw [s.afterDrw_pixel, hbit, Bool.xor_true, Bool.not_eq_true']

end

/-- Settles O39: the second draw is in bounds as the first one was, for `I` is in the first one's frame. -/
theorem drawingTwiceRestoresDisplay : Obligations.DrawingTwiceRestoresDisplay := by
  unfold Obligations.DrawingTwiceRestoresDisplay
  intro x y n s hx hy h
  have hi : (s.afterDrw x y n).i = s.i := rfl
  refine ⟨_, _, exec_drw_of_inBounds h, exec_drw_of_inBounds (hi ▸ h),
    s.afterDrw_afterDrw_pixel hx hy n, ?_⟩
  exact (s.afterDrw_afterDrw_collision_iff hx hy n).trans (s.exists_spriteBit_iff n)

end Sys2Proof.Machine

/-! ### Keypad and timers (45_keypad_timers.md) -/

namespace Sys2Proof.Machine

/-! ### Keys -/

/-- The key a skip looks at is the one of the register's low digit (decision D12). -/
theorem State.eq_lowNibble_of_toNat {s : State} {x k : Reg}
    (hk : k.toNat = (s.getV x).toNat % 16) : k = s.lowNibble x :=
  BitVec.eq_of_toNat_eq (hk.trans (s.lowNibble_toNat x).symm)

/-- Settles O40: both are skips on the level of the key of the register's low digit. -/
theorem skipsOnKeyLevel : Obligations.SkipsOnKeyLevel := by
  unfold Obligations.SkipsOnKeyLevel
  intro x k s hk
  obtain rfl : k = s.lowNibble x := State.eq_lowNibble_of_toNat hk
  exact ⟨⟨decode_encode (i := .skp x) rfl, s.skipIf_answers Iff.rfl⟩,
    decode_encode (i := .sknp x) rfl, s.skipIf_answers (iff_of_eq (Bool.not_eq_true' _))⟩

/-- Settles O42: the poll of the instruction's own register, with a least key and with none. -/
theorem keyWaitTakesKeyOrSuspends : Obligations.KeyWaitTakesKeyOrSuspends := by
  unfold Obligations.KeyWaitTakesKeyOrSuspends
  intro x s
  have hexec : exec (.ldVxK x) s = .next (s.keyPoll x) := rfl
  rw [hexec]
  refine ⟨decode_encode (i := .ldVxK x) rfl, fun k hk hleast => ?_, fun hnone => ?_⟩
  · rw [s.keyPoll_of_least x k hk hleast]
    exact ⟨_, rfl, s.getV_setV_self x _, rfl, rfl, Frame.takeKey s x _⟩
  · rw [s.keyPoll_of_none x hnone]
    exact ⟨_, rfl, rfl, rfl, (Frame.suspend s x).mono (by simp)⟩

/-! ### Timers -/

/-- Settles O41: the register is written with `DT`. -/
theorem ldVxDtReadsDelayTimer : Obligations.LdVxDtReadsDelayTimer := by
  unfold Obligations.LdVxDtReadsDelayTimer
  exact fun x s => ⟨decode_encode (i := .ldVxDt x) rfl, s.setV_answers x s.dt⟩

/-- An instruction that writes one part and moves on. -/
theorem Frame.advance_frameBut {q : Part} {s t : State} (h : Frame (fun p => p = q) s t) :
    FrameBut [q, .pc] s t.advance :=
  (h.trans (Frame.advance t)).mono (by simp)

theorem State.toneActive_iff (s : State) : s.toneActive = true ↔ 0 < s.st.toNat :=
  decide_eq_true_iff

/-- Settles O43: each timer is written with `V[x]`, and the tone follows the new `ST`. -/
theorem timersAreSetFromRegister : Obligations.TimersAreSetFromRegister := by
  unfold Obligations.TimersAreSetFromRegister
  exact fun x s =>
    ⟨⟨decode_encode (i := .ldDtVx x) rfl, _, rfl, rfl, rfl, (Frame.setDt s _).advance_frameBut⟩,
      decode_encode (i := .ldStVx x) rfl, _, rfl, rfl, rfl, (Frame.setSt s _).advance_frameBut,
      State.toneActive_iff _⟩

end Sys2Proof.Machine

/-! ### Exceptions and the host's clock (60_exceptions.md) -/

namespace Sys2Proof.Machine

/-! ### A word that is no instruction -/

/-- Settles O9: such a word decodes to an error, and the step raises UnknownOpcode in both modes. -/
theorem unknownWordHalts : Obligations.UnknownWordHalts := by
  unfold Obligations.UnknownWordHalts
  intro s hr hpc hunknown
  cases hd : decode s.wordAtPc with
  | ok i => exact absurd hd (hunknown i)
  | error e => exact ⟨_, step_of_unknown hr hpc hd, haltsWith_raise s _ _⟩

/-! ### Timer pulses (R165) -/

theorem Frame.timerPulse (s : State) : FrameBut [.dt, .st] s s.timerPulse := by
  by_cases hs : s.run = .halted
  · rw [State.timerPulse_of_halted hs]
    exact Frame.refl _ s
  · rw [State.timerPulse_of_not_halted hs]
    exact ((Frame.setDt s _).trans (Frame.setSt _ _)).mono (by simp)

section
variable {s : State} (hs : s.run ≠ .halted)
include hs

theorem State.timerPulse_dt_toNat : s.timerPulse.dt.toNat = s.dt.toNat - 1 := by
  rw [State.timerPulse_of_not_halted hs, State.setSt_dt, State.setDt_dt, countDown_toNat]

theorem State.timerPulse_st_toNat : s.timerPulse.st.toNat = s.st.toNat - 1 := by
  rw [State.timerPulse_of_not_halted hs, State.setSt_st, countDown_toNat]

end

/-- Settles O50: the two cases of a pulse, with its frame. -/
theorem timerPulseCountsDown : Obligations.TimerPulseCountsDown := by
  unfold Obligations.TimerPulseCountsDown
  exact fun s =>
    ⟨fun hs => congrArg _ (State.timerPulse_of_halted hs),
      fun hs => ⟨_, rfl, State.timerPulse_dt_toNat hs, State.timerPulse_st_toNat hs,
        Frame.timerPulse s⟩⟩

/-- As events, `n` pulses are the `n` rounds of `timerPulses`. -/
theorem Vm.deliverAll_timerPulses (n : Nat) (s : State) :
    Vm.deliverAll (List.replicate n .timerPulse) (.started s)
      = .next (.started (State.timerPulses n s)) := by
  induction n generalizing s with
  | zero => rfl
  | succ n ih => exact ih s.timerPulse

theorem Frame.timerPulses (n : Nat) (s : State) :
    FrameBut [.dt, .st] s (State.timerPulses n s) := by
  induction n generalizing s with
  | zero => exact Frame.refl _ s
  | succ n ih => exact ((Frame.timerPulse s).trans (ih s.timerPulse)).mono fun _ => or_self_iff.mp

/-- The floor at 0 is that of the subtraction, so the rounds add up. -/
theorem State.timerPulses_toNat (n : Nat) {s : State} (hs : s.run ≠ .halted) :
    (State.timerPulses n s).dt.toNat = s.dt.toNat - n
      ∧ (State.timerPulses n s).st.toNat = s.st.toNat - n := by
  induction n generalizing s with
  | zero => exact ⟨rfl, rfl⟩
  | succ n ih =>
    obtain ⟨hdt, hst⟩ := ih (s := s.timerPulse) (by rwa [State.timerPulse_run])
    rw [State.timerPulse_dt_toNat hs] at hdt
    rw [State.timerPulse_st_toNat hs] at hst
    rw [State.timerPulses, hdt, hst]
    omega

/-- Settles O51: the timers after `n` rounds, and the tone as the positivity of `ST` (R46). -/
theorem pulsesRunTimersDown : Obligations.PulsesRunTimersDown := by
  unfold Obligations.PulsesRunTimersDown
  intro n s hs
  obtain ⟨hdt, hst⟩ := State.timerPulses_toNat n hs
  refine ⟨_, Vm.deliverAll_timerPulses n s, hdt, hst, ?_, Frame.timerPulses n s⟩
  rw [State.toneActive_iff, hst]
  exact Nat.sub_pos_iff_lt

/-! ### A refused load (R156, R182) -/

theorem Vm.accepts_notStarted_of_not_reset (report : Option Fault) (n : Nat) {e : Event}
    (hne : ∀ program compat, e ≠ .reset program compat) :
    (Vm.notStarted report n).accepts e = false := by
  cases e with
  | reset program compat => exact absurd rfl (hne program compat)
  | step | timerPulse | setKeys => rfl

/-- Settles O54: the refused machine accepts `Reset` alone, and that starts it as it starts any machine. -/
theorem refusedLoadAwaitsReset : Obligations.RefusedLoadAwaitsReset := by
  unfold Obligations.RefusedLoadAwaitsReset
  intro program c m hlarge
  refine ⟨_, Vm.deliver_reset_of_too_large m hlarge c, (fun _ h => nomatch h), rfl, fun e hne => ?_,
    fun again d hfits => ?_⟩
  · have hrefused := Vm.accepts_notStarted_of_not_reset (some .programTooLarge) m.rndIndex hne
    exact ⟨hrefused, Vm.deliver_of_not_accepted _ e hrefused⟩
  · exact ⟨_, Vm.deliver_reset_of_fits _ hfits d,
      fun k hk => bootState_readByte_program d hk, rfl, rfl, rfl, rfl, rfl, rfl⟩

end Sys2Proof.Machine
